-- ==== Sys2Proof/Word.lean ====
section
/-! DEFINITION. The one word type of the block: the byte. Every wire field is one byte and every value is unsigned
(00_scope.md section 6, 20_memory.md R24). Lengths and indices are natural numbers. -/

namespace Sys2Proof

/-- An unsigned integer 0 to 255 (00_scope.md section 6); bit 0 is the least significant bit (R3). -/
abbrev Byte := BitVec 8

end Sys2Proof
end

