-- ==== Sys2Proof/Config.lean ====
section
/-! DEFINITION. The constants and parameters of 00_scope.md R1: what is fixed before reset and never changes (10_state.md
R14). Nothing of the block is left open (93_implementation_defined.md section 1), so there is no free value here. The
parameters of the host are open and are arguments of the host's model only. -/

namespace Sys2Proof

/-- `FLAG`, the frame delimiter byte (R1, R36). -/
def FLAG : Byte := 0xF9#8

/-- `MAX_LEN`, the largest content length the one-byte length indicator carries (R1, R49). -/
def MAX_LEN : Nat := 127

/-- `DLCI_MAX`: channel ids are 0 to 63 (R1). -/
def DLCI_MAX : Nat := 63

/-- `MIN_FRAME`, the bytes of a frame with empty content (R1, R54). -/
def MIN_FRAME : Nat := 6

/-- `MAX_FRAME`, the bytes of the longest frame (R1, R54). -/
def MAX_FRAME : Nat := MAX_LEN + 6

/-- The parameter of the block (R1): `FB_CAP`, the FrameBuffer capacity in bytes. It is plain data, so every claim holds
for every capacity (log entry 6). -/
structure Config where
  fbCap : Nat
  deriving DecidableEq, Repr

/-- The source's reference sizing, `FB_CAP = 2048` (R1). -/
def Config.reference : Config := { fbCap := 2048 }

/-- `IO_ERROR_POLICY` (44_host_usage.md R151, 92_eei_decisions.md D22): fatal to the process, or to the affected channel
only. -/
inductive IoErrorPolicy where
  | fatal
  | perChannel
  deriving DecidableEq, Repr

/-- `OVERSIZE_POLICY` (R146, D27): bound the reads to 127 bytes, split a longer read into several frames, or drop it with
a log entry. -/
inductive OversizePolicy where
  | boundReads
  | split
  | drop
  deriving DecidableEq, Repr

/-- The host's parameters (R1, 44_host_usage.md). The fields without a default value are open: the source names them and
gives no value (D21, D22, D27). `crDisc`, `crClose` and `pfClose` are the bits of the DISC frames and of the close-down
frame that the source gives no name (R148, R149; log entry 15). -/
structure HostParams where
  nChannels     : Nat
  crCommand     : BitVec 1
  crOut         : BitVec 1
  pfOut         : BitVec 1
  crDisc        : BitVec 1
  pfDisc        : BitVec 1
  crClose       : BitVec 1
  pfClose       : BitVec 1
  placeholder   : Byte
  cldBytes      : List Byte
  discOrder     : List Nat
  ioError       : IoErrorPolicy
  oversize      : OversizePolicy
  atRetries     : Nat
  atOkFirst     : Bool
  epScratch     : Nat := 1024
  pollIntervalS : Nat := 1
  deriving DecidableEq, Repr

end Sys2Proof
end

