-- ==== Sys2Proof/Syntax.lean ====
section
/-! DEFINITION. The syntax of the block: the value types of the operation interface that are operands (10_state.md R15),
the operations and frame types as the ONE inductive `Instr` (one constructor per row of spec/opcode_table.json), and the
requests a host can put at the block's port. -/

namespace Sys2Proof

/-- The closed set of six frame types (R15, R41), in the order of the source's list (R57). -/
inductive FrameType where
  | sabm
  | ua
  | dm
  | disc
  | uih
  | ui
  deriving DecidableEq, Repr

/-- A frame value (R15). Its length is `content.length` and is not stored (92_eei_decisions.md D6). The control byte is
raw: it may carry no frame type (R108). -/
structure Frame where
  address : Byte
  control : Byte
  content : List Byte
  deriving DecidableEq, Repr

/-- One constructor per row of spec/opcode_table.json: the 21 operations (R55) with their operands, at the operand widths
of 40_field_ops.md section 1, and the six frame types as wire control bytes (R42 to R47) with their PF bit. -/
inductive Instr where
  | addrPack (dlci : BitVec 6) (cr ea : BitVec 1)
  | addrGetEa (a : Byte)
  | addrGetCr (a : Byte)
  | addrGetDlci (a : Byte)
  | addrSetEa (a : Byte) (v : BitVec 1)
  | addrSetCr (a : Byte) (v : BitVec 1)
  | addrSetDlci (a : Byte) (dlci : BitVec 6)
  | ctrlPack (t : FrameType) (pf : BitVec 1)
  | ctrlGetPf (c : Byte)
  | ctrlGetType (c : Byte)
  | ctrlSetPf (c : Byte) (v : BitVec 1)
  | ctrlSetType (c : Byte) (t : FrameType)
  | lenPack (len : Nat)
  | lenUnpack (b : Byte)
  | fcsCompute (address control li : Byte) (content : List Byte)
  | fcsCheck (address control li : Byte) (content : List Byte) (received : Byte)
  | frameEncode (f : Frame)
  | frameDecode (input : List Byte)
  | fbIngest (bytes : List Byte)
  | fbExtract
  | fbDrain
  | sabm (pf : BitVec 1)
  | ua (pf : BitVec 1)
  | dm (pf : BitVec 1)
  | disc (pf : BitVec 1)
  | uih (pf : BitVec 1)
  | ui (pf : BitVec 1)
  deriving DecidableEq, Repr

/-- The two encoding spaces of spec/opcode_table.json: formats "op-select" (R56) and "control-byte" (R40). They overlap
as numbers (0x03 is ADDR.GET_DLCI in one and UI in the other), so a request says which it is in (log entry 3). -/
inductive Port where
  | operation
  | control
  deriving DecidableEq, Repr

/-- What the host can do at the block's interface, one at a time (00_scope.md R2, 92_eei_decisions.md D1): issue an
operation or present a control byte, as the bytes of its encoding (log entries 1 and 3), or reset the block (R190,
R191). -/
inductive Request where
  | issue (port : Port) (bytes : List Byte)
  | reset
  deriving DecidableEq, Repr

end Sys2Proof
end

