-- ==== Sys2Proof/WellFormed.lean ====
section
/-! DEFINITION. Well-formedness of the values of the interface. Bit operands are 1 bit and a DLCI is 6 bits by their
types, so "out-of-range operands cannot be expressed" (92_eei_decisions.md D16): no instruction is ill-formed by a field.
The one bound the spec puts on a value type is that of `Frame` (R15). -/

namespace Sys2Proof

/-- The bound of R15 on a frame value: `len(content) <= MAX_LEN`. A frame operand of FRAME.ENCODE may break it; the
operation then returns `LengthOverflow` (R100). -/
def Frame.WellFormed (f : Frame) : Bool := decide (f.content.length ≤ MAX_LEN)

/-- The channel count the host may be configured with: ids 0 to `nChannels - 1` are channel ids (R1, R141), and the DISC
order names every non-zero id once (R148). -/
def HostParams.WellFormed (p : HostParams) : Bool :=
  decide (p.nChannels ≤ DLCI_MAX + 1) &&
    decide (p.discOrder.Perm ((List.range p.nChannels).filter (· ≠ 0)))

/-- Every operand value of every operation is accepted: the field operations take every byte (R61 to R73), FRAME.ENCODE
every frame (R100), the other operations every byte sequence of any length (R92, R101, R120). -/
def Instr.WellFormed : Instr → Bool
  | .addrPack _ _ _ => true
  | .addrGetEa _ => true
  | .addrGetCr _ => true
  | .addrGetDlci _ => true
  | .addrSetEa _ _ => true
  | .addrSetCr _ _ => true
  | .addrSetDlci _ _ => true
  | .ctrlPack _ _ => true
  | .ctrlGetPf _ => true
  | .ctrlGetType _ => true
  | .ctrlSetPf _ _ => true
  | .ctrlSetType _ _ => true
  | .lenPack _ => true
  | .lenUnpack _ => true
  | .fcsCompute _ _ _ _ => true
  | .fcsCheck _ _ _ _ _ => true
  | .frameEncode _ => true
  | .frameDecode _ => true
  | .fbIngest _ => true
  | .fbExtract => true
  | .fbDrain => true
  | .sabm _ => true
  | .ua _ => true
  | .dm _ => true
  | .disc _ => true
  | .uih _ => true
  | .ui _ => true

end Sys2Proof
end

