-- ==== Sys2Proof/Decode.lean ====
section
/-! DEFINITION. Reading a request's bytes as an instruction, total on any bytes and rejecting by name, and the encoder.
The select codes are those of 30_encoding.md R56, the FrameType codes those of R57, the control bytes those of R41. The
layout of the operands behind the select code is the model's own (92_eei_decisions.md D1 gives them none; log entry 1):
a byte, a bit, a DLCI and a FrameType take one byte each, a natural number takes one byte for each whole 255 it holds
(0xFF) and one for the rest, and a byte sequence is its length as a natural number and then its bytes. -/

namespace Sys2Proof

/-! ### Frame types as numbers (R41, R57) -/

/-- The type code of a frame type: its control byte with PF = 0 (R41, R67). -/
def FrameType.controlCode : FrameType → Byte
  | .sabm => 0x2F#8
  | .ua => 0x63#8
  | .dm => 0x0F#8
  | .disc => 0x43#8
  | .uih => 0xEF#8
  | .ui => 0x03#8

/-- `type_code(control) = control & 0xEF`: the control byte with its PF bit forced to 0 (R40). -/
def typeCode (control : Byte) : Byte := control &&& 0xEF#8

/-- The frame type a control byte carries, if any (R41, R48, R69): the inverse of `controlCode` with PF ignored. -/
def frameTypeOf (control : Byte) : Option FrameType :=
  if typeCode control = 0x2F#8 then some .sabm
  else if typeCode control = 0x63#8 then some .ua
  else if typeCode control = 0x0F#8 then some .dm
  else if typeCode control = 0x43#8 then some .disc
  else if typeCode control = 0xEF#8 then some .uih
  else if typeCode control = 0x03#8 then some .ui
  else none

/-- `PF(control) = control[4]` (R40, R68). -/
def pfBit (control : Byte) : BitVec 1 := control.extractLsb' 4 1

/-- `control = type_code | (PF << 4)` (R40, R67). -/
def packControl (t : FrameType) (pf : BitVec 1) : Byte := t.controlCode ||| (pf.setWidth 8 <<< 4)

/-- The 3-bit code of a frame type operand, in the order of the source's list (R57). -/
def FrameType.operandCode : FrameType → Nat
  | .sabm => 0
  | .ua => 1
  | .dm => 2
  | .disc => 3
  | .uih => 4
  | .ui => 5

/-! ### Decoding -/

/-- Why a request's bytes are no instruction. `illegalOp` and `unsupportedFrameType` are the spec's own answers, which
the block returns as statuses; the others say that the bytes are not one whole request, which the spec's interface of
whole operand values (92_eei_decisions.md D1) cannot express (log entry 10). -/
inductive DecodeError where
  /-- A reserved select code (R56) or a reserved FrameType operand, 6 or 7 (R57): status `IllegalOp`. -/
  | illegalOp
  /-- A control byte that carries no frame type (R48): status `UnsupportedFrameType`. -/
  | unsupportedFrameType (control : Byte)
  /-- A request of no bytes. -/
  | emptyRequest
  /-- The first byte of an operation has a bit above bit 4 set: it is no 5-bit select code (R56). -/
  | selectOutOfRange
  /-- The request ends inside an operand. -/
  | operandMissing
  /-- A bit operand above 1, a DLCI above 63 or a FrameType code above 7 (40_field_ops.md section 1: a wider operand is
  refused, never truncated). -/
  | operandOutOfRange
  /-- Bytes are left over after the last operand. -/
  | trailingBytes
  deriving DecidableEq, Repr

/-- One operand byte. -/
def takeByte : List Byte → Except DecodeError (Byte × List Byte)
  | [] => .error .operandMissing
  | b :: rest => .ok (b, rest)

/-- A 1-bit operand, 0 or 1 (40_field_ops.md section 1). -/
def takeBit : List Byte → Except DecodeError (BitVec 1 × List Byte)
  | [] => .error .operandMissing
  | b :: rest => if b.toNat ≤ 1 then .ok (b.setWidth 1, rest) else .error .operandOutOfRange

/-- A 6-bit DLCI operand, 0 to 63 (40_field_ops.md section 1). -/
def takeDlci : List Byte → Except DecodeError (BitVec 6 × List Byte)
  | [] => .error .operandMissing
  | b :: rest => if b.toNat ≤ DLCI_MAX then .ok (b.setWidth 6, rest) else .error .operandOutOfRange

/-- A FrameType operand by its 3-bit code; 6 and 7 are reserved (R57). -/
def takeFrameType : List Byte → Except DecodeError (FrameType × List Byte)
  | [] => .error .operandMissing
  | b :: rest =>
    match b.toNat with
    | 0 => .ok (.sabm, rest)
    | 1 => .ok (.ua, rest)
    | 2 => .ok (.dm, rest)
    | 3 => .ok (.disc, rest)
    | 4 => .ok (.uih, rest)
    | 5 => .ok (.ui, rest)
    | 6 => .error .illegalOp
    | 7 => .error .illegalOp
    | _ => .error .operandOutOfRange

/-- A natural-number operand: 255 for each 0xFF, and the first other byte (log entry 1). -/
def takeNat : List Byte → Except DecodeError (Nat × List Byte)
  | [] => .error .operandMissing
  | b :: rest =>
    if b = 0xFF#8 then
      match takeNat rest with
      | .ok (n, rest') => .ok (n + 255, rest')
      | .error e => .error e
    else .ok (b.toNat, rest)

/-- A byte-sequence operand: its length, then its bytes (log entry 1). -/
def takeBytes (ops : List Byte) : Except DecodeError (List Byte × List Byte) :=
  match takeNat ops with
  | .ok (n, rest) => if n ≤ rest.length then .ok (rest.take n, rest.drop n) else .error .operandMissing
  | .error e => .error e

/-- A frame operand: address, control, content (R15). -/
def takeFrame (ops : List Byte) : Except DecodeError (Frame × List Byte) := do
  let (address, ops) ← takeByte ops
  let (control, ops) ← takeByte ops
  let (content, ops) ← takeBytes ops
  .ok (⟨address, control, content⟩, ops)

/-- The operation of a select code (R56) with its operands in the order of its rule, and the bytes left over. The eleven
reserved codes are `illegalOp` before any operand is looked at (R173). -/
def decodeOperands (select : Nat) (ops : List Byte) : Except DecodeError (Instr × List Byte) :=
  match select with
  | 0x00 => do
    let (dlci, ops) ← takeDlci ops
    let (cr, ops) ← takeBit ops
    let (ea, ops) ← takeBit ops
    .ok (.addrPack dlci cr ea, ops)
  | 0x01 => do
    let (a, ops) ← takeByte ops
    .ok (.addrGetEa a, ops)
  | 0x02 => do
    let (a, ops) ← takeByte ops
    .ok (.addrGetCr a, ops)
  | 0x03 => do
    let (a, ops) ← takeByte ops
    .ok (.addrGetDlci a, ops)
  | 0x04 => do
    let (a, ops) ← takeByte ops
    let (v, ops) ← takeBit ops
    .ok (.addrSetEa a v, ops)
  | 0x05 => do
    let (a, ops) ← takeByte ops
    let (v, ops) ← takeBit ops
    .ok (.addrSetCr a v, ops)
  | 0x06 => do
    let (a, ops) ← takeByte ops
    let (dlci, ops) ← takeDlci ops
    .ok (.addrSetDlci a dlci, ops)
  | 0x08 => do
    let (t, ops) ← takeFrameType ops
    let (pf, ops) ← takeBit ops
    .ok (.ctrlPack t pf, ops)
  | 0x09 => do
    let (c, ops) ← takeByte ops
    .ok (.ctrlGetPf c, ops)
  | 0x0A => do
    let (c, ops) ← takeByte ops
    .ok (.ctrlGetType c, ops)
  | 0x0B => do
    let (c, ops) ← takeByte ops
    let (v, ops) ← takeBit ops
    .ok (.ctrlSetPf c v, ops)
  | 0x0C => do
    let (c, ops) ← takeByte ops
    let (t, ops) ← takeFrameType ops
    .ok (.ctrlSetType c t, ops)
  | 0x0E => do
    let (len, ops) ← takeNat ops
    .ok (.lenPack len, ops)
  | 0x0F => do
    let (b, ops) ← takeByte ops
    .ok (.lenUnpack b, ops)
  | 0x10 => do
    let (address, ops) ← takeByte ops
    let (control, ops) ← takeByte ops
    let (li, ops) ← takeByte ops
    let (content, ops) ← takeBytes ops
    .ok (.fcsCompute address control li content, ops)
  | 0x11 => do
    let (address, ops) ← takeByte ops
    let (control, ops) ← takeByte ops
    let (li, ops) ← takeByte ops
    let (content, ops) ← takeBytes ops
    let (received, ops) ← takeByte ops
    .ok (.fcsCheck address control li content received, ops)
  | 0x14 => do
    let (f, ops) ← takeFrame ops
    .ok (.frameEncode f, ops)
  | 0x15 => do
    let (input, ops) ← takeBytes ops
    .ok (.frameDecode input, ops)
  | 0x18 => do
    let (bytes, ops) ← takeBytes ops
    .ok (.fbIngest bytes, ops)
  | 0x19 => .ok (.fbExtract, ops)
  | 0x1A => .ok (.fbDrain, ops)
  | _ => .error .illegalOp

/-- The operation at the head of a byte sequence, and the bytes behind it. The first byte is the select code `op[4:0]`
(R56) with bits 7:5 zero. -/
def decodeOperation : List Byte → Except DecodeError (Instr × List Byte)
  | [] => .error .emptyRequest
  | select :: ops => if select.toNat < 32 then decodeOperands select.toNat ops else .error .selectOutOfRange

/-- The frame type a control byte stands for, as an instruction (R41), with the byte's own PF bit. -/
def decodeControl (control : Byte) : Except DecodeError Instr :=
  match frameTypeOf control with
  | some .sabm => .ok (.sabm (pfBit control))
  | some .ua => .ok (.ua (pfBit control))
  | some .dm => .ok (.dm (pfBit control))
  | some .disc => .ok (.disc (pfBit control))
  | some .uih => .ok (.uih (pfBit control))
  | some .ui => .ok (.ui (pfBit control))
  | none => .error (.unsupportedFrameType control)

/-- The instruction of one whole request. -/
def decode : Port → List Byte → Except DecodeError Instr
  | .operation, bytes =>
    match decodeOperation bytes with
    | .ok (i, []) => .ok i
    | .ok (_, _ :: _) => .error .trailingBytes
    | .error e => .error e
  | .control, [] => .error .emptyRequest
  | .control, [c] => decodeControl c
  | .control, _ :: _ :: _ => .error .trailingBytes

/-! ### Encoding -/

/-- A 1-bit operand as a byte. -/
def bitByte (v : BitVec 1) : Byte := v.setWidth 8

/-- A 6-bit operand as a byte. -/
def dlciByte (d : BitVec 6) : Byte := d.setWidth 8

/-- A FrameType operand as a byte (R57). -/
def typeByte (t : FrameType) : Byte := BitVec.ofNat 8 t.operandCode

/-- A natural-number operand as bytes (log entry 1). -/
def natBytes (n : Nat) : List Byte := List.replicate (n / 255) 0xFF#8 ++ [BitVec.ofNat 8 (n % 255)]

/-- A byte-sequence operand as bytes (log entry 1). -/
def seqBytes (s : List Byte) : List Byte := natBytes s.length ++ s

/-- Which encoding space an instruction belongs to. -/
def portOf : Instr → Port
  | .addrPack _ _ _ => .operation
  | .addrGetEa _ => .operation
  | .addrGetCr _ => .operation
  | .addrGetDlci _ => .operation
  | .addrSetEa _ _ => .operation
  | .addrSetCr _ _ => .operation
  | .addrSetDlci _ _ => .operation
  | .ctrlPack _ _ => .operation
  | .ctrlGetPf _ => .operation
  | .ctrlGetType _ => .operation
  | .ctrlSetPf _ _ => .operation
  | .ctrlSetType _ _ => .operation
  | .lenPack _ => .operation
  | .lenUnpack _ => .operation
  | .fcsCompute _ _ _ _ => .operation
  | .fcsCheck _ _ _ _ _ => .operation
  | .frameEncode _ => .operation
  | .frameDecode _ => .operation
  | .fbIngest _ => .operation
  | .fbExtract => .operation
  | .fbDrain => .operation
  | .sabm _ => .control
  | .ua _ => .control
  | .dm _ => .control
  | .disc _ => .control
  | .uih _ => .control
  | .ui _ => .control

/-- The bytes of an instruction: the select code (R56) and the operands, or the control byte (R41). -/
def encode : Instr → List Byte
  | .addrPack dlci cr ea => [0x00#8, dlciByte dlci, bitByte cr, bitByte ea]
  | .addrGetEa a => [0x01#8, a]
  | .addrGetCr a => [0x02#8, a]
  | .addrGetDlci a => [0x03#8, a]
  | .addrSetEa a v => [0x04#8, a, bitByte v]
  | .addrSetCr a v => [0x05#8, a, bitByte v]
  | .addrSetDlci a dlci => [0x06#8, a, dlciByte dlci]
  | .ctrlPack t pf => [0x08#8, typeByte t, bitByte pf]
  | .ctrlGetPf c => [0x09#8, c]
  | .ctrlGetType c => [0x0A#8, c]
  | .ctrlSetPf c v => [0x0B#8, c, bitByte v]
  | .ctrlSetType c t => [0x0C#8, c, typeByte t]
  | .lenPack len => 0x0E#8 :: natBytes len
  | .lenUnpack b => [0x0F#8, b]
  | .fcsCompute address control li content => [0x10#8, address, control, li] ++ seqBytes content
  | .fcsCheck address control li content received =>
    [0x11#8, address, control, li] ++ seqBytes content ++ [received]
  | .frameEncode f => [0x14#8, f.address, f.control] ++ seqBytes f.content
  | .frameDecode input => 0x15#8 :: seqBytes input
  | .fbIngest bytes => 0x18#8 :: seqBytes bytes
  | .fbExtract => [0x19#8]
  | .fbDrain => [0x1A#8]
  | .sabm pf => [packControl .sabm pf]
  | .ua pf => [packControl .ua pf]
  | .dm pf => [packControl .dm pf]
  | .disc pf => [packControl .disc pf]
  | .uih pf => [packControl .uih pf]
  | .ui pf => [packControl .ui pf]

/-- The request that issues an instruction. -/
def Instr.request (i : Instr) : Request := .issue (portOf i) (encode i)

/-! ### Words of the opcode table -/

/-- The bytes of a word of the table, bit 0 in the first byte, and behind them zeros for the longest operands that are
all zero (FCS.CHECK has five such bytes). -/
def tableBytes (nbits w : Nat) : List Byte :=
  (List.range ((nbits + 7) / 8)).map (fun k => BitVec.ofNat 8 (w >>> (8 * k))) ++ List.replicate 8 0x00#8

/-- The request that a word of the table stands for, its operands zero. The table's two formats overlap as numbers and
a word does not say which it is in: it is an operation if its first byte is a select code in use, else a control byte
(log entry 4). -/
def tableRequest (nbits w : Nat) : Request :=
  let bytes := tableBytes nbits w
  match decodeOperation bytes with
  | .ok (_, rest) => .issue .operation (bytes.take (bytes.length - rest.length))
  | .error _ =>
    match decode .control (bytes.take 1) with
    | .ok _ => .issue .control (bytes.take 1)
    | .error _ => .issue .operation (bytes.take 1)

/-- The instruction the decoder reads from a word of spec/opcode_table.json, operand bytes zero. -/
def decodeTableWord (nbits w : Nat) : Option Instr :=
  match tableRequest nbits w with
  | .issue port bytes =>
    match decode port bytes with
    | .ok i => some i
    | .error _ => none
  | .reset => none

end Sys2Proof
end

