-- ==== Sys2Proof/Machine/State.lean ====
section
/-! DEFINITION. The state of the block as plain data, what it returns to the host, and the reasons a step can stop.
`fb` is the only state the spec gives the block (10_state.md R10 to R16); `config` holds its parameter (R1); `pending` and
`response` are the model's own picture of the interface (log entry 2). -/

namespace Sys2Proof.Machine

/-- The eleven statuses with the information each returns (60_exceptions.md R171). -/
inductive Status where
  | ok
  | noFrame
  | noFlag
  | truncated
  | unsupportedLength (li : Byte)
  | noClosingFlag
  | fcsMismatch
  | unsupportedFrameType (control : Byte)
  | lengthOverflow (len : Nat)
  | overflow (used offered : Nat)
  | illegalOp
  deriving DecidableEq, Repr

/-- Which bytes of a frame the checksum covers (30_encoding.md R52). -/
inductive Coverage where
  | header
  | headerAndContent
  deriving DecidableEq, Repr

/-- The results of FRAME.DECODE (42_frame_codec.md R101, R107). -/
structure Decoded where
  frame    : Frame
  consumed : Nat
  skipped  : Nat
  deriving DecidableEq, Repr

/-- The results an operation returns with status `Ok`; each operation's rule says which form it takes. `controlInfo` is
what the block makes of a control byte that carries a type (R41 to R47; log entry 3). -/
inductive Result where
  | none
  | byte (b : Byte)
  | bit (v : BitVec 1)
  | dlci (d : BitVec 6)
  | frameType (t : FrameType)
  | length (n : BitVec 7)
  | bytes (s : List Byte)
  | decoded (d : Decoded)
  | frame (f : Frame)
  | frames (fs : List Frame)
  | controlInfo (control : Byte) (t : FrameType) (pf : BitVec 1) (coverage : Coverage)
  deriving DecidableEq, Repr

/-- What a request returns to the host: a status, and results that are `none` unless the status is `Ok` (R170). -/
structure Response where
  status : Status
  result : Result
  deriving DecidableEq, Repr

/-- The FrameBuffer's contents: a sequence of bytes, index 0 the head (10_state.md R10). -/
abbrev Memory := List Byte

/-- The form of the one memory: its length is at most the capacity (R10, R29). Equal sequences are equal memories, so
nothing else is needed to make the form canonical. -/
abbrev Memory.wf (cap : Nat) (m : Memory) : Bool := decide (m.length ≤ cap)

/-- The block and its interface. `config` and `fb` are the spec's; `pending`, the requests the host will issue in order,
and `response`, the last answer, are the model's (log entry 2). -/
structure State where
  config   : Config
  fb       : Memory
  pending  : List Request
  response : Option Response
  deriving DecidableEq, Repr

/-- Reasons for a fault. The block has no traps (R170); these name the preconditions of the two memory primitives (R22),
which every rule checks first, so no step answers with one. Safe: a fault stops the model and claims nothing. -/
inductive Fault where
  /-- `MemRead` past the tail of `FB`. -/
  | readPastTail
  /-- `MemWrite` past the capacity. -/
  | writePastCapacity
  deriving DecidableEq, Repr

/-- Reasons for a refusal. -/
inductive Refusal where
  /-- Raised by `exec` for an instruction without a meaning; no arm raises it. Safe. -/
  | notModelled (mnemonic : String)
  /-- Raised by `step` for a request whose bytes are not one whole operation with operands in range: the interface of
  92_eei_decisions.md D1 and D16 cannot express it (log entry 10). Safe. -/
  | malformedRequest (reason : DecodeError)
  deriving DecidableEq, Repr

/-- Right after reset: `FB` is empty (R17, R190), the capacity is the reference sizing (R1, log entry 6), no request
stands at the port and nothing has been answered (log entry 2). -/
def State.reset : State := { config := Config.reference, fb := [], pending := [], response := none }

end Sys2Proof.Machine
end

