-- ==== Sys2Proof/Machine/Operands.lean ====
section
/-! DEFINITION. The operand forms: what is read from and written into an address byte, a control byte and a length
indicator (40_field_ops.md R60 to R73), as pure functions (R76), and reading a byte sequence at an index (00_scope.md
section 6). -/

namespace Sys2Proof.Machine

/-! ### The address byte: EA bit 0, CR bit 1, DLCI bits 7:2 (30_encoding.md R37) -/

/-- `(dlci << 2) | (cr << 1) | ea` (R60). -/
def packAddress (dlci : BitVec 6) (cr ea : BitVec 1) : Byte :=
  (dlci.setWidth 8 <<< 2) ||| (cr.setWidth 8 <<< 1) ||| ea.setWidth 8

/-- `a[0]` (R61). -/
def addressEa (a : Byte) : BitVec 1 := a.extractLsb' 0 1

/-- `a[1]` (R62). -/
def addressCr (a : Byte) : BitVec 1 := a.extractLsb' 1 1

/-- `a[7:2]` (R63). -/
def addressDlci (a : Byte) : BitVec 6 := a.extractLsb' 2 6

/-- `(a & 0xFE) | v` (R64). -/
def withEa (a : Byte) (v : BitVec 1) : Byte := (a &&& 0xFE#8) ||| v.setWidth 8

/-- `(a & 0xFD) | (v << 1)` (R65). -/
def withCr (a : Byte) (v : BitVec 1) : Byte := (a &&& 0xFD#8) ||| (v.setWidth 8 <<< 1)

/-- `(a & 0x03) | (dlci << 2)` (R66). -/
def withDlci (a : Byte) (dlci : BitVec 6) : Byte := (a &&& 0x03#8) ||| (dlci.setWidth 8 <<< 2)

/-! ### The control byte: PF bit 4, type code in the other bits (R40); `typeCode`, `frameTypeOf`, `pfBit` and
`packControl` stand in Decode.lean -/

/-- CTRL.GET_TYPE (R69). -/
def controlType (c : Byte) : Except Status FrameType :=
  match frameTypeOf c with
  | some t => .ok t
  | none => .error (.unsupportedFrameType c)

/-- `(c & 0xEF) | (v << 4)` (R70). -/
def withPf (c : Byte) (v : BitVec 1) : Byte := (c &&& 0xEF#8) ||| (v.setWidth 8 <<< 4)

/-- `code(t) | (c & 0x10)` (R71). -/
def withType (c : Byte) (t : FrameType) : Byte := t.controlCode ||| (c &&& 0x10#8)

/-! ### The length indicator (R49) -/

/-- LEN.PACK (R72): `(L << 1) | 1` for `L <= 127`; the value is never reduced modulo 256. -/
def packLength (len : Nat) : Except Status Byte :=
  if len > MAX_LEN then .error (.lengthOverflow len) else .ok (BitVec.ofNat 8 ((len <<< 1) ||| 1))

/-- LEN.UNPACK (R73): the two-octet form, bit 0 clear, is refused and never guessed (R50). -/
def unpackLength (b : Byte) : Except Status (BitVec 7) :=
  if b.getLsbD 0 = false then .error (.unsupportedLength b) else .ok (b.extractLsb' 1 7)

/-! ### Byte sequences (00_scope.md section 6) -/

/-- `s[i]`. Every rule that reads a byte compares its index with the length first (R22), so the byte given for an index
past the end is never used. -/
def byteAt (s : List Byte) (i : Nat) : Byte := s.getD i 0x00#8

/-- `s[i..j]`: from index `i` inclusive to `j` exclusive. -/
def slice (s : List Byte) (i j : Nat) : List Byte := (s.drop i).take (j - i)

/-- `first_flag(s)`: the least index of a FLAG byte, if there is one. -/
def firstFlag : List Byte → Option Nat
  | [] => none
  | b :: rest => if b = FLAG then some 0 else (firstFlag rest).map (· + 1)

end Sys2Proof.Machine
end

