-- ==== Sys2Proof/Machine/Ops.lean ====
section
/-! DEFINITION. The named operations over the block's state: the two memory primitives and the removals (20_memory.md
R22), returning results or a failure status (60_exceptions.md R170), taking the next request from the port, and reset
(70_reset_and_hazards.md R190). -/

namespace Sys2Proof.Machine

/-! ### The FrameBuffer (R20 to R22) -/

/-- The byte `i` places from the head, if there is one: the read of one byte of the memory. -/
def State.readByte (s : State) (i : Nat) : Option Byte := s.fb[i]?

/-- `MemRead(i, n)` (R22): none where `i + n <= len(FB)` does not hold. -/
def State.memRead (s : State) (i n : Nat) : Option (List Byte) :=
  if i + n ≤ s.fb.length then some (slice s.fb i (i + n)) else none

/-- `MemWrite(bytes)` (R22): append at the tail; none where the capacity would be passed. -/
def State.memWrite (s : State) (bytes : List Byte) : Option State :=
  if s.fb.length + bytes.length ≤ s.config.fbCap then some { s with fb := s.fb ++ bytes } else none

/-- `FB <- v`, for the removals from the head and the clearing of R22. -/
def State.setFb (s : State) (v : Memory) : State := { s with fb := v }

/-! ### Returning to the host (R170) -/

/-- `return (r)`: status `Ok` with the results. -/
def State.answer (s : State) (r : Result) : State := { s with response := some ⟨.ok, r⟩ }

/-- `raise st`: the status instead of results. It transfers control nowhere, saves nothing, changes no mode and masks
nothing (R170): the one shared operation for everything the block has in place of an exception. -/
def State.raise (s : State) (st : Status) : State := { s with response := some ⟨st, .none⟩ }

/-- The end of every operation: its results or its failure status are returned and the block goes on. -/
def conclude (r : Except Status Result) (s : State) : Host.Outcome State Fault Refusal :=
  match r with
  | .ok v => .next (s.answer v)
  | .error st => .next (s.raise st)

/-! ### The port (00_scope.md R2, 10_state.md R12; log entry 2) -/

/-- The request to be served now and the state in which it is served, if the host has issued one. -/
def State.takeRequest (s : State) : Option (Request × State) :=
  match s.pending with
  | [] => none
  | r :: rest => some (r, { s with pending := rest })

/-- What the port answers to bytes that are no instruction: the spec's own statuses as a next state (R56, R57, R48), the
model's refusal where the bytes are not one whole request (log entry 10). -/
def rejectRequest (e : DecodeError) (s : State) : Host.Outcome State Fault Refusal :=
  match e with
  | .illegalOp => .next (s.raise .illegalOp)
  | .unsupportedFrameType c => .next (s.raise (.unsupportedFrameType c))
  | .emptyRequest => .refused (.malformedRequest .emptyRequest)
  | .selectOutOfRange => .refused (.malformedRequest .selectOutOfRange)
  | .operandMissing => .refused (.malformedRequest .operandMissing)
  | .operandOutOfRange => .refused (.malformedRequest .operandOutOfRange)
  | .trailingBytes => .refused (.malformedRequest .trailingBytes)

/-- The reset event (R190): `FB` becomes empty and there is no status of a last operation. The parameter is fixed (R14)
and what the host goes on to issue is the host's. -/
def State.resetBlock (s : State) : State := { s with fb := [], response := none }

end Sys2Proof.Machine
end

