-- ==== Sys2Proof/Machine/Codec.lean ====
section
/-! DEFINITION. Frame encode and decode (42_frame_codec.md), as pure functions and as the two operations. -/

namespace Sys2Proof.Machine

/-- FRAME.ENCODE (R100): the wire bytes of R35, or `LengthOverflow` and no bytes. -/
def encodeFrame (f : Frame) : Except Status (List Byte) :=
  match packLength f.content.length with
  | .ok li =>
    .ok ([FLAG, f.address, f.control, li] ++ f.content ++
      [fcsCompute f.address f.control li f.content, FLAG])
  | .error st => .error st

/-- FRAME.DECODE (R101), its checks in the order of R112. -/
def decodeFrame (input : List Byte) : Except Status Decoded :=
  match firstFlag input with
  | none => .error .noFlag
  | some s =>
    if s + 3 ≥ input.length then .error .truncated
    else
      match unpackLength (byteAt input (s + 3)) with
      | .error st => .error st
      | .ok len =>
        if s + 5 + len.toNat ≥ input.length then .error .truncated
        else if byteAt input (s + 5 + len.toNat) ≠ FLAG then .error .noClosingFlag
        else if byteAt input (s + 4 + len.toNat) ≠
            fcsCompute (byteAt input (s + 1)) (byteAt input (s + 2)) (byteAt input (s + 3))
              (slice input (s + 4) (s + 4 + len.toNat)) then .error .fcsMismatch
        else
          .ok
            { frame :=
                { address := byteAt input (s + 1)
                  control := byteAt input (s + 2)
                  content := slice input (s + 4) (s + 4 + len.toNat) }
              consumed := s + len.toNat + 6
              skipped := s }

/-- FRAME.ENCODE (R100). -/
def execFrameEncode (f : Frame) (s : State) : Host.Outcome State Fault Refusal :=
  conclude ((encodeFrame f).map .bytes) s

/-- FRAME.DECODE (R101): it changes no state (R109). -/
def execFrameDecode (input : List Byte) (s : State) : Host.Outcome State Fault Refusal :=
  conclude ((decodeFrame input).map .decoded) s

end Sys2Proof.Machine
end

