-- ==== Sys2Proof/Machine/Buffer.lean ====
section
/-! DEFINITION. The FrameBuffer operations and resynchronisation (43_frame_buffer.md): pure functions from the old buffer
contents to the new ones with their results, and the three operations, the only ones that touch `FB` (R19). -/

namespace Sys2Proof.Machine

/-- The failure arm (R124): discard through the first FLAG, or everything if there is none. -/
def resync (fb : Memory) : Memory :=
  match firstFlag fb with
  | none => []
  | some p => fb.drop (p + 1)

/-- One extraction (R122): the frame, if decoding succeeds at the head, and the buffer afterwards. The reason of a
failure is not passed on (R111, R128). -/
def extractOne (fb : Memory) : Option Frame × Memory :=
  match decodeFrame fb with
  | .ok d => (some d.frame, fb.drop d.consumed)
  | .error _ => (none, resync fb)

/-- The loop of FB.DRAIN (R125) for at most `n` extractions. -/
def drainLoop : Nat → Memory → List Frame × Memory
  | 0, fb => ([], fb)
  | n + 1, fb =>
    if 0 < fb.length ∧ firstFlag fb ≠ none then
      ((extractOne fb).1.toList ++ (drainLoop n (extractOne fb).2).1, (drainLoop n (extractOne fb).2).2)
    else ([], fb)

/-- FB.DRAIN's loop to its end: each extraction removes a byte or more, so `len(FB)` of them are enough (R125, R126). -/
def drainAll (fb : Memory) : List Frame × Memory := drainLoop fb.length fb

/-- FB.INGEST (R120, R121): the bytes at the tail, or `Overflow` and nothing stored. -/
def execFbIngest (bytes : List Byte) (s : State) : Host.Outcome State Fault Refusal :=
  if s.fb.length + bytes.length > s.config.fbCap then
    conclude (.error (.overflow s.fb.length bytes.length)) s
  else
    match s.memWrite bytes with
    | some s' => conclude (.ok .none) s'
    | none => .fault .writePastCapacity

/-- FB.EXTRACT (R122 to R124): the state change of the failure arm stands beside its status. -/
def execFbExtract (s : State) : Host.Outcome State Fault Refusal :=
  match s.memRead 0 s.fb.length with
  | none => .fault .readPastTail
  | some fb =>
    match (extractOne fb).1 with
    | some f => conclude (.ok (.frame f)) (s.setFb (extractOne fb).2)
    | none => conclude (.error .noFrame) (s.setFb (extractOne fb).2)

/-- FB.DRAIN (R125): always `Ok`, one atomic operation. -/
def execFbDrain (s : State) : Host.Outcome State Fault Refusal :=
  match s.memRead 0 s.fb.length with
  | none => .fault .readPastTail
  | some fb => conclude (.ok (.frames (drainAll fb).1)) (s.setFb (drainAll fb).2)

end Sys2Proof.Machine
end

