-- ==== Sys2Proof/Machine/Fcs.lean ====
section
/-! DEFINITION. The checksum operations (41_fcs.md): pure, always `Ok`. -/

namespace Sys2Proof.Machine

/-- FCS.COMPUTE (R92): over the bytes it is given, unchecked. -/
def execFcsCompute (address control li : Byte) (content : List Byte) (s : State) :
    Host.Outcome State Fault Refusal :=
  conclude (.ok (.byte (fcsCompute address control li content))) s

/-- FCS.CHECK (R93): the verdict is the result bit, not the status. -/
def execFcsCheck (address control li : Byte) (content : List Byte) (received : Byte) (s : State) :
    Host.Outcome State Fault Refusal :=
  conclude (.ok (.bit (fcsCheck address control li content received))) s

end Sys2Proof.Machine
end

