-- ==== Sys2Proof/Machine/Field.lean ====
section
/-! DEFINITION. The field operations (40_field_ops.md): each is a pure function of its operands that neither reads nor
writes `FB` (R76, 10_state.md R19). -/

namespace Sys2Proof.Machine

/-- ADDR.PACK (R60). -/
def execAddrPack (dlci : BitVec 6) (cr ea : BitVec 1) (s : State) : Host.Outcome State Fault Refusal :=
  conclude (.ok (.byte (packAddress dlci cr ea))) s

/-- ADDR.GET_EA (R61). -/
def execAddrGetEa (a : Byte) (s : State) : Host.Outcome State Fault Refusal :=
  conclude (.ok (.bit (addressEa a))) s

/-- ADDR.GET_CR (R62). -/
def execAddrGetCr (a : Byte) (s : State) : Host.Outcome State Fault Refusal :=
  conclude (.ok (.bit (addressCr a))) s

/-- ADDR.GET_DLCI (R63). -/
def execAddrGetDlci (a : Byte) (s : State) : Host.Outcome State Fault Refusal :=
  conclude (.ok (.dlci (addressDlci a))) s

/-- ADDR.SET_EA (R64). -/
def execAddrSetEa (a : Byte) (v : BitVec 1) (s : State) : Host.Outcome State Fault Refusal :=
  conclude (.ok (.byte (withEa a v))) s

/-- ADDR.SET_CR (R65). -/
def execAddrSetCr (a : Byte) (v : BitVec 1) (s : State) : Host.Outcome State Fault Refusal :=
  conclude (.ok (.byte (withCr a v))) s

/-- ADDR.SET_DLCI (R66). -/
def execAddrSetDlci (a : Byte) (dlci : BitVec 6) (s : State) : Host.Outcome State Fault Refusal :=
  conclude (.ok (.byte (withDlci a dlci))) s

/-- CTRL.PACK (R67). -/
def execCtrlPack (t : FrameType) (pf : BitVec 1) (s : State) : Host.Outcome State Fault Refusal :=
  conclude (.ok (.byte (packControl t pf))) s

/-- CTRL.GET_PF (R68): for every byte, with or without a type. -/
def execCtrlGetPf (c : Byte) (s : State) : Host.Outcome State Fault Refusal :=
  conclude (.ok (.bit (pfBit c))) s

/-- CTRL.GET_TYPE (R69). -/
def execCtrlGetType (c : Byte) (s : State) : Host.Outcome State Fault Refusal :=
  conclude ((controlType c).map .frameType) s

/-- CTRL.SET_PF (R70). -/
def execCtrlSetPf (c : Byte) (v : BitVec 1) (s : State) : Host.Outcome State Fault Refusal :=
  conclude (.ok (.byte (withPf c v))) s

/-- CTRL.SET_TYPE (R71). -/
def execCtrlSetType (c : Byte) (t : FrameType) (s : State) : Host.Outcome State Fault Refusal :=
  conclude (.ok (.byte (withType c t))) s

/-- LEN.PACK (R72). -/
def execLenPack (len : Nat) (s : State) : Host.Outcome State Fault Refusal :=
  conclude ((packLength len).map .byte) s

/-- LEN.UNPACK (R73). -/
def execLenUnpack (b : Byte) (s : State) : Host.Outcome State Fault Refusal :=
  conclude ((unpackLength b).map .length) s

end Sys2Proof.Machine
end

