-- ==== Sys2Proof/Machine/FrameTypes.lean ====
section
/-! DEFINITION. The six frame types (30_encoding.md R42 to R47). They are wire control bytes, not operations: what each
means to the block is its control byte `type_code | (PF << 4)` and the checksum coverage. The model answers with exactly
that and changes nothing else (log entry 3). -/

namespace Sys2Proof.Machine

/-- What the block makes of a control byte (R40, R41, R48, R52). -/
def describeControl (c : Byte) : Except Status Result :=
  (controlType c).map (fun t => .controlInfo c t (pfBit c) (coverageOf c))

/-- SABM (R42). -/
def execSabm (pf : BitVec 1) (s : State) : Host.Outcome State Fault Refusal :=
  conclude (describeControl (packControl .sabm pf)) s

/-- UA (R43). -/
def execUa (pf : BitVec 1) (s : State) : Host.Outcome State Fault Refusal :=
  conclude (describeControl (packControl .ua pf)) s

/-- DM (R44). -/
def execDm (pf : BitVec 1) (s : State) : Host.Outcome State Fault Refusal :=
  conclude (describeControl (packControl .dm pf)) s

/-- DISC (R45). -/
def execDisc (pf : BitVec 1) (s : State) : Host.Outcome State Fault Refusal :=
  conclude (describeControl (packControl .disc pf)) s

/-- UIH (R46). -/
def execUih (pf : BitVec 1) (s : State) : Host.Outcome State Fault Refusal :=
  conclude (describeControl (packControl .uih pf)) s

/-- UI (R47). -/
def execUi (pf : BitVec 1) (s : State) : Host.Outcome State Fault Refusal :=
  conclude (describeControl (packControl .ui pf)) s

end Sys2Proof.Machine
end

