-- ==== Sys2Proof/Machine/Dispatch.lean ====
section
/-! DEFINITION. The meaning of every instruction, one arm per row of spec/opcode_table.json. -/

namespace Sys2Proof.Machine

def exec (i : Instr) (s : State) : Host.Outcome State Fault Refusal :=
  match i with
  | .addrPack dlci cr ea => Sys2Proof.Machine.execAddrPack dlci cr ea s
  | .addrGetEa a => Sys2Proof.Machine.execAddrGetEa a s
  | .addrGetCr a => Sys2Proof.Machine.execAddrGetCr a s
  | .addrGetDlci a => Sys2Proof.Machine.execAddrGetDlci a s
  | .addrSetEa a v => Sys2Proof.Machine.execAddrSetEa a v s
  | .addrSetCr a v => Sys2Proof.Machine.execAddrSetCr a v s
  | .addrSetDlci a dlci => Sys2Proof.Machine.execAddrSetDlci a dlci s
  | .ctrlPack t pf => Sys2Proof.Machine.execCtrlPack t pf s
  | .ctrlGetPf c => Sys2Proof.Machine.execCtrlGetPf c s
  | .ctrlGetType c => Sys2Proof.Machine.execCtrlGetType c s
  | .ctrlSetPf c v => Sys2Proof.Machine.execCtrlSetPf c v s
  | .ctrlSetType c t => Sys2Proof.Machine.execCtrlSetType c t s
  | .lenPack len => Sys2Proof.Machine.execLenPack len s
  | .lenUnpack b => Sys2Proof.Machine.execLenUnpack b s
  | .fcsCompute address control li content => Sys2Proof.Machine.execFcsCompute address control li content s
  | .fcsCheck address control li content received => Sys2Proof.Machine.execFcsCheck address control li content received s
  | .frameEncode f => Sys2Proof.Machine.execFrameEncode f s
  | .frameDecode input => Sys2Proof.Machine.execFrameDecode input s
  | .fbIngest bytes => Sys2Proof.Machine.execFbIngest bytes s
  | .fbExtract => Sys2Proof.Machine.execFbExtract s
  | .fbDrain => Sys2Proof.Machine.execFbDrain s
  | .sabm pf => Sys2Proof.Machine.execSabm pf s
  | .ua pf => Sys2Proof.Machine.execUa pf s
  | .dm pf => Sys2Proof.Machine.execDm pf s
  | .disc pf => Sys2Proof.Machine.execDisc pf s
  | .uih pf => Sys2Proof.Machine.execUih pf s
  | .ui pf => Sys2Proof.Machine.execUi pf s

end Sys2Proof.Machine
end

