-- ==== Sys2Proof/Machine/Step.lean ====
section
/-! DEFINITION. One step: the block serves the next request of the host, whole, before anything else happens (00_scope.md
R2). Without a request it is idle and holds its state (60_exceptions.md R174, R180). -/

namespace Sys2Proof.Machine

/-- The request at the head of the port is taken off it and served: a reset, the instruction its bytes decode to, or the
port's answer to bytes that are none. -/
def step (s : State) : Host.Outcome State Fault Refusal :=
  match s.takeRequest with
  | none => .next s
  | some (.reset, s') => .next s'.resetBlock
  | some (.issue port bytes, s') =>
    match decode port bytes with
    | .ok i => exec i s'
    | .error e => rejectRequest e s'

/-- The state with a word of the opcode table, its operands zero, as the host's next request (log entries 4 and 5). -/
def State.withFetchWord (s : State) (nbits w : Nat) : State :=
  { s with pending := tableRequest nbits w :: s.pending }

end Sys2Proof.Machine
end

