-- ==== Sys2Proof/Machine/Multiplexer.lean ====
section
/-! DEFINITION. The host of the block (44_host_usage.md): the source's multiplexer, channel table and event loop, as far as
the spec describes them. "They constrain a model of the host. They add nothing to the block's own behaviour": nothing of
the block's model depends on this file. Every use of the block goes through `exec`. What the source leaves open is a
parameter (`HostParams`); log entries 15, 16 and 19 to 21 name what the model adds. -/

namespace Sys2Proof.Machine

/-! ### The host's state (10_state.md R18) -/

/-- The states of a channel (R141): CLOSED, OPENING, OPEN, CLOSING. -/
inductive ChannelState where
  | closed
  | opening
  | opened
  | closing
  deriving DecidableEq, Repr

/-- An entry of the channel table: its state (R141), whether its endpoint is bound to it (acquired at start-up, released
exactly at shutdown, R18), and whether a transport error has put it out of service (R151; log entry 16). -/
structure Channel where
  state  : ChannelState
  bound  : Bool
  failed : Bool
  deriving DecidableEq, Repr

/-- What the operating system answers to a write on the serial stream or an endpoint (R151; log entry 20). -/
inductive WriteAnswer where
  | written
  | failed
  deriving DecidableEq, Repr

/-- What the host logs (R144 to R146, R151). -/
inductive LogEntry where
  | unsupportedFrameType (control : Byte)
  | unknownChannel (id : Nat)
  | encodeFailed (id : Nat) (st : Status)
  | oversizeDropped (id len : Nat)
  | ingestOverflow
  | transportIOError (channel : Option Nat)
  | channelFailed (id : Nat)
  deriving DecidableEq, Repr

/-- The channel table and the cancellation flag (R18); the bytes written to the serial stream; the contents written to
the endpoints, each with its channel id, in the order of the writes; the log; whether the loop runs, whether a transport
error has ended the work of this iteration (R151), and whether the session is CLOSED (R149). `writeAnswers` is the
outside world: what the operating system will answer to the writes to come, success where the list ends (log entry 20). -/
structure HostState where
  channels      : List Channel
  serialOut     : List Byte
  delivered     : List (Nat × List Byte)
  cancelled     : Bool
  log           : List LogEntry
  running       : Bool
  workEnded     : Bool
  sessionClosed : Bool
  writeAnswers  : List WriteAnswer
  deriving DecidableEq, Repr

/-- The host and the block it uses. -/
structure System where
  host  : HostState
  block : State
  deriving DecidableEq, Repr

/-- Issue one operation and take what it returns (R150: never two at once, never half-way). -/
def System.call (sys : System) (i : Instr) : System × Option Response :=
  match exec i sys.block with
  | .next b => ({ sys with block := b }, b.response)
  | .fault _ => (sys, none)
  | .refused _ => (sys, none)

/-- Log an event and go on. -/
def System.logEntry (sys : System) (e : LogEntry) : System :=
  { sys with host := { sys.host with log := sys.host.log ++ [e] } }

/-- The next write's answer is taken (log entry 20). -/
def System.takeAnswer (sys : System) : WriteAnswer × System :=
  (sys.host.writeAnswers.headD .written,
    { sys with host := { sys.host with writeAnswers := sys.host.writeAnswers.tail } })

/-- Write bytes to the serial stream, whole or not at all; a write that fails goes on as `onFailure` says. -/
def System.writeSerial (sys : System) (bytes : List Byte) (onFailure : System → System) : System :=
  match sys.takeAnswer with
  | (.written, sys') => { sys' with host := { sys'.host with serialOut := sys'.host.serialOut ++ bytes } }
  | (.failed, sys') => onFailure sys'

/-- Write content to the endpoint of a channel, whole or not at all; a write that fails goes on as `onFailure` says. -/
def System.writeEndpoint (sys : System) (id : Nat) (content : List Byte) (onFailure : System → System) : System :=
  match sys.takeAnswer with
  | (.written, sys') => { sys' with host := { sys'.host with delivered := sys'.host.delivered ++ [(id, content)] } }
  | (.failed, sys') => onFailure sys'

/-- Change one entry of the channel table; ids outside it change nothing. -/
def System.modifyChannel (sys : System) (id : Nat) (change : Channel → Channel) : System :=
  { sys with host := { sys.host with channels := sys.host.channels.modify id change } }

/-- Move a channel to a state (R147). -/
def System.setChannelState (sys : System) (id : Nat) (st : ChannelState) : System :=
  sys.modifyChannel id (fun c => { c with state := st })

/-! ### Transport errors (R151) -/

/-- Process shutdown: the endpoints are released and the channel table is destroyed, and nothing runs on (R18, R141). -/
def System.exitProcess (sys : System) : System :=
  { sys with host := { sys.host with channels := [], running := false } }

/-- A transport error outside the steady state is logged, and the sequence goes on: shutdown is best-effort (R149), and
for start-up the spec says nothing (log entry 20). -/
def System.noteFailure (sys : System) : System := sys.logEntry (.transportIOError none)

/-- A transport error of the steady state is logged and ends the work of the iteration. `IO_ERROR_POLICY` says whether it
is fatal to the process or only to the affected channel, which is then out of service with its endpoint still bound
(R151; log entry 16). -/
def System.ioFailure (p : HostParams) (channel : Option Nat) (sys : System) : System :=
  let logged := sys.logEntry (.transportIOError channel)
  let ended := { logged with host := { logged.host with workEnded := true } }
  match p.ioError, channel with
  | .fatal, _ => ended.exitProcess
  | .perChannel, some id => ended.modifyChannel id (fun c => { c with failed := true })
  | .perChannel, none => ended

/-- Work of one iteration, piece by piece, until it is done or a transport error has ended it (R151). -/
def System.whileWorking {α : Type} (work : System → α → System) : List α → System → System
  | [], sys => sys
  | a :: rest, sys => if sys.host.workEnded then sys else System.whileWorking work rest (work sys a)

/-! ### Building frames (R140, outbound) -/

/-- ADDR.PACK, CTRL.PACK, FRAME.ENCODE, with EA = 1. Channel ids are at most 63 (`HostParams.WellFormed`). -/
def System.buildFrame (sys : System) (id : Nat) (cr : BitVec 1) (t : FrameType) (pf : BitVec 1) (content : List Byte) :
    System × Except Status (List Byte) :=
  match sys.call (.addrPack (BitVec.ofNat 6 id) cr 1#1) with
  | (sys1, some ⟨.ok, .byte address⟩) =>
    match sys1.call (.ctrlPack t pf) with
    | (sys2, some ⟨.ok, .byte control⟩) =>
      match sys2.call (.frameEncode ⟨address, control, content⟩) with
      | (sys3, some ⟨.ok, .bytes bytes⟩) => (sys3, .ok bytes)
      | (sys3, some ⟨st, _⟩) => (sys3, .error st)
      | (sys3, none) => (sys3, .error .illegalOp)
    | (sys2, _) => (sys2, .error .illegalOp)
  | (sys1, _) => (sys1, .error .illegalOp)

/-- Build one frame and write it to the serial stream; a frame that cannot be encoded is logged and not sent (R207). -/
def System.sendFrame (sys : System) (id : Nat) (cr : BitVec 1) (t : FrameType) (pf : BitVec 1) (content : List Byte)
    (onFailure : System → System) : System :=
  match sys.buildFrame id cr t pf content with
  | (sys', .ok bytes) => sys'.writeSerial bytes onFailure
  | (sys', .error st) => sys'.logEntry (.encodeFailed id st)

/-! ### The AT-command exchange before the loop (R152) -/

/-- How the exchange ends. -/
inductive AtOutcome where
  | success
  | commandFailed
  | timedOut
  deriving DecidableEq, Repr

/-- Whether a text contains another. -/
def containsText (needle : List Byte) : List Byte → Bool
  | [] => needle.isEmpty
  | b :: rest => needle.isPrefixOf (b :: rest) || containsText needle rest

/-- The text "OK". -/
def okText : List Byte := [0x4F#8, 0x4B#8]

/-- The text "ERROR". -/
def errorText : List Byte := [0x45#8, 0x52#8, 0x52#8, 0x4F#8, 0x52#8]

/-- At most `retries` waits on a transport that answers each with some bytes or, when `timeout_ms` has passed, with none.
Which of the two texts is tested first is not in the source: parameter `okFirst` (91_not_in_source.md N11). -/
def atCommand (okFirst : Bool) : Nat → List (Option (List Byte)) → AtOutcome
  | 0, _ => .timedOut
  | _ + 1, [] => .timedOut
  | n + 1, none :: rest => atCommand okFirst n rest
  | n + 1, some text :: rest =>
    if containsText okText text && (okFirst || !containsText errorText text) then .success
    else if containsText errorText text then .commandFailed
    else atCommand okFirst n rest

/-! ### Start-up (R142, R143, R147, R194) -/

/-- A channel as it is created: CLOSED, its endpoint bound (R18, R141). -/
def Channel.fresh : Channel := { state := .closed, bound := true, failed := false }

/-- The host before start-up, beside a block after reset (R154: reset before first use), in a world that will answer its
writes as given. -/
def System.created (p : HostParams) (answers : List WriteAnswer := []) : System :=
  { host :=
      { channels := List.replicate p.nChannels Channel.fresh
        serialOut := []
        delivered := []
        cancelled := false
        log := []
        running := false
        workEnded := false
        sessionClosed := false
        writeAnswers := answers }
    block := State.reset }

/-- SABM to one id, and the fire-and-forget transition to OPEN (R142, R143). -/
def System.openChannel (p : HostParams) (sys : System) (id : Nat) : System :=
  ((sys.sendFrame id p.crCommand .sabm 1#1 [p.placeholder] System.noteFailure).setChannelState id .opening).setChannelState
    id .opened

/-- SABM to ids 0 to N-1 in ascending order, control channel first; then the loop runs (R142, R194). -/
def System.startUp (p : HostParams) (sys : System) : System :=
  let sys' := (List.range p.nChannels).foldl (System.openChannel p) sys
  { sys' with host := { sys'.host with running := true } }

/-- One AT exchange of the start-up: the command, and what the transport answers to each wait. -/
structure AtExchange where
  command   : List Byte
  responses : List (Option (List Byte))
  deriving DecidableEq, Repr

/-- The exchange (R152): the command is written, and then the responses are waited for. -/
def System.atExchange (p : HostParams) (x : AtExchange) (sys : System) : System × AtOutcome :=
  (sys.writeSerial x.command System.noteFailure, atCommand p.atOkFirst p.atRetries x.responses)

/-- The order of start-up (R194): the AT exchanges, then the SABM frames, then the loop. A failed exchange is fatal to
start-up: it ends before the loop, with the commands written so far (R151). The bytes read in the exchanges are not
ingested. That such an end leaves the channel table in place with its endpoints bound is log entry 21's. -/
def System.bringUp (p : HostParams) : List AtExchange → System → System × AtOutcome
  | [], sys => (sys.startUp p, .success)
  | x :: rest, sys =>
    match sys.atExchange p x with
    | (sys', .success) => System.bringUp p rest sys'
    | (sys', .commandFailed) => (sys', .commandFailed)
    | (sys', .timedOut) => (sys', .timedOut)

/-! ### Steady state (R144 to R146) -/

/-- Deliver content to the channel's endpoint verbatim, or log and drop it if no endpoint is bound to the id (R144,
R145) or the channel is out of service (log entry 16). The channel's state is not consulted. -/
def System.deliver (p : HostParams) (sys : System) (id : Nat) (content : List Byte) : System :=
  match sys.host.channels[id]? with
  | none => sys.logEntry (.unknownChannel id)
  | some c =>
    if !c.bound then sys.logEntry (.unknownChannel id)
    else if c.failed then sys.logEntry (.channelFailed id)
    else sys.writeEndpoint id content (System.ioFailure p (some id))

/-- Route one extracted frame (R144). A received SABM, UA, DM or DISC has no stated action (91_not_in_source.md N7). -/
def System.route (p : HostParams) (sys : System) (f : Frame) : System :=
  match sys.call (.ctrlGetType f.control) with
  | (sys1, some ⟨.ok, .frameType t⟩) =>
    if t = .uih ∨ t = .ui then
      match sys1.call (.addrGetDlci f.address) with
      | (sys2, some ⟨.ok, .dlci d⟩) => sys2.deliver p d.toNat f.content
      | (sys2, _) => sys2
    else sys1
  | (sys1, _) => sys1.logEntry (.unsupportedFrameType f.control)

/-- FB.INGEST of the bytes of a serial read; after `Overflow` they are dropped, with a log entry (R121 leaves it to the
host; log entry 15). -/
def System.ingest (sys : System) (bytes : List Byte) : System :=
  match sys.call (.fbIngest bytes) with
  | (sys', some ⟨.ok, _⟩) => sys'
  | (sys', _) => sys'.logEntry .ingestOverflow

/-- One serial read: FB.INGEST, FB.DRAIN, and each frame routed until a delivery fails (R140, R144, R151). -/
def System.inbound (p : HostParams) (sys : System) (bytes : List Byte) : System :=
  match (sys.ingest bytes).call .fbDrain with
  | (sys', some ⟨.ok, .frames fs⟩) => System.whileWorking (System.route p) fs sys'
  | (sys', _) => sys'

/-- The pieces of at most 127 bytes of a longer read, at most `n` of them. -/
def chunks : Nat → List Byte → List (List Byte)
  | 0, _ => []
  | n + 1, data => if data.length ≤ MAX_LEN then [data] else data.take MAX_LEN :: chunks n (data.drop MAX_LEN)

/-- How many bytes one endpoint read takes: `EP_SCRATCH`, or at most 127 of them where the host bounds its reads (R146,
92_eei_decisions.md D27). -/
def readSize (p : HostParams) : Nat :=
  match p.oversize with
  | .boundReads => min p.epScratch MAX_LEN
  | .split => p.epScratch
  | .drop => p.epScratch

/-- One endpoint readiness event: the bytes read become one UIH frame (R146); a read of more than 127 bytes follows
`OVERSIZE_POLICY`; data of an endpoint that no channel of the table is bound to is logged and dropped
(93_implementation_defined.md U8), and so is that of a channel out of service (log entry 16). That the host tests the
length of a read itself, and so issues no FRAME.ENCODE that would return `LengthOverflow` (R207), is log entry 15's. -/
def System.outbound (p : HostParams) (sys : System) (id : Nat) (available : List Byte) : System :=
  match sys.host.channels[id]? with
  | none => sys.logEntry (.unknownChannel id)
  | some c =>
    let data := available.take (readSize p)
    let send := fun (sys' : System) (d : List Byte) => sys'.sendFrame id p.crOut .uih p.pfOut d (System.ioFailure p none)
    if !c.bound then sys.logEntry (.unknownChannel id)
    else if c.failed then sys.logEntry (.channelFailed id)
    else if data.length ≤ MAX_LEN then send sys data
    else
      match p.oversize with
      | .boundReads => sys.logEntry (.oversizeDropped id data.length)
      | .drop => sys.logEntry (.oversizeDropped id data.length)
      | .split => System.whileWorking send (chunks data.length data) sys

/-! ### Shutdown (R148, R149) -/

/-- DISC to every non-zero id in the host's order and the close-down command on channel 0, best-effort; then the session is
CLOSED, the loop stops and every endpoint is released (R18). That every channel is CLOSED at the end, channel 0 among
them, is log entry 15's. -/
def System.shutDown (p : HostParams) (sys : System) : System :=
  let signalled :=
    p.discOrder.foldl
      (fun sys' id =>
        (sys'.sendFrame id p.crDisc .disc p.pfDisc [p.placeholder] System.noteFailure).setChannelState id .closing) sys
  let closedDown := signalled.sendFrame 0 p.crClose .uih p.pfClose p.cldBytes System.noteFailure
  { closedDown with
    host :=
      { closedDown.host with
        channels := closedDown.host.channels.map (fun c => { c with state := .closed, bound := false })
        running := false
        sessionClosed := true } }

/-! ### The event loop (R150, R151) -/

/-- One thing a readiness wait reports: a descriptor that can be read, with what the read gives, or whose read fails. -/
inductive LoopEvent where
  | serialReadable (bytes : List Byte)
  | endpointReadable (id : Nat) (available : List Byte)
  | serialError
  | endpointError (id : Nat)
  deriving DecidableEq, Repr

/-- The externally set cancellation flag (R150). -/
def System.cancel (sys : System) : System := { sys with host := { sys.host with cancelled := true } }

/-- Serve one ready descriptor. -/
def System.serve (p : HostParams) (sys : System) (event : LoopEvent) : System :=
  match event with
  | .serialReadable bytes => sys.inbound p bytes
  | .endpointReadable id available => sys.outbound p id available
  | .serialError => System.ioFailure p none sys
  | .endpointError id => System.ioFailure p (some id) sys

/-- One iteration (R150): cancellation is observed at its top, and then everything the wait reported is served, in the
order given, until a transport error ends the iteration's work (R151). The spec is silent on how many descriptors one
wait reports and on their order, so both are open here: `ready` is any list, empty where the poll interval ended the wait
(log entry 19). -/
def System.iterate (p : HostParams) (sys : System) (ready : List LoopEvent) : System :=
  if sys.host.running then
    if sys.host.cancelled then (sys.shutDown p).exitProcess
    else System.whileWorking (System.serve p) ready { sys with host := { sys.host with workEnded := false } }
  else sys

/-- The loop over what a sequence of waits reports. -/
def System.runLoop (p : HostParams) (sys : System) (waits : List (List LoopEvent)) : System :=
  waits.foldl (System.iterate p) sys

end Sys2Proof.Machine
end

