-- ==== Sys2Proof/Safety.lean ====
section
/-! DEFINITION. What counts as safe, in the terms the statements use. -/

namespace Sys2Proof

open Machine

/-- The invariant of the block's one memory (10_state.md R10): the FrameBuffer is within its capacity. -/
def Machine.State.Inv (s : State) : Prop := Memory.wf s.config.fbCap s.fb = true

/-- A request that the interface of 92_eei_decisions.md D1 can express: a reset, an instruction, or an encoding the
block itself answers with a status (R56, R57, R48). -/
def Request.Expressible : Request → Bool
  | .reset => true
  | .issue port bytes =>
    match decode port bytes with
    | .ok _ => true
    | .error .illegalOp => true
    | .error (.unsupportedFrameType _) => true
    | .error .emptyRequest => false
    | .error .selectOutOfRange => false
    | .error .operandMissing => false
    | .error .operandOutOfRange => false
    | .error .trailingBytes => false

/-- Everything an operation leaves alone when it does not touch the buffer: the parameter, the requests still to come,
the buffer's length and every byte of it (10_state.md R19). -/
def Machine.State.OnlyResponds (s t : State) : Prop :=
  t.config = s.config ∧ t.pending = s.pending ∧ t.fb.length = s.fb.length ∧ ∀ i, t.readByte i = s.readByte i

/-- The instruction runs, returns status `Ok` with result `r`, and changes nothing but the response. -/
def Machine.Returns (i : Instr) (s : State) (r : Result) : Prop :=
  ∃ t, exec i s = .next t ∧ t.response = some ⟨.ok, r⟩ ∧ s.OnlyResponds t

/-- The instruction runs, returns the failure status `st` without a result, and changes nothing but the response. -/
def Machine.Raises (i : Instr) (s : State) (st : Status) : Prop :=
  ∃ t, exec i s = .next t ∧ t.response = some ⟨st, .none⟩ ∧ s.OnlyResponds t

/-- At the port, `bytes` are answered with the failure status `st` and no result, and nothing else of the block changes:
the request is taken off the port and the block goes on (60_exceptions.md R170). -/
def Machine.PortRaises (port : Port) (bytes : List Byte) (st : Status) : Prop :=
  ∀ (s : State) (rest : List Request), s.pending = .issue port bytes :: rest →
    step s = .next { s with pending := rest, response := some ⟨st, .none⟩ }

/-- Several operations one after the other (00_scope.md R2), stopping at the first that gives no next state. -/
def Machine.execAll : List Instr → State → Host.Outcome State Fault Refusal
  | [], s => .next s
  | i :: rest, s =>
    match exec i s with
    | .next t => Machine.execAll rest t
    | .fault r => .fault r
    | .refused r => .refused r

/-- Which of some frames the host delivers, where each goes and with what content (R144): those with a control byte of
type UIH or UI whose id has a bound endpoint in service (log entry 16). -/
def Machine.HostState.deliveries (h : HostState) (fs : List Frame) : List (Nat × List Byte) :=
  fs.filterMap fun f =>
    if f.control ∈ ([0xEF, 0xFF, 0x03, 0x13] : List Byte) ∧
        (h.channels[f.address.toNat / 4]?).any (fun c => c.bound && !c.failed) = true
    then some (f.address.toNat / 4, f.content) else none

/-- What the host logs about the frames it drops (R144, R145; `channelFailed` is log entry 16's). -/
def Machine.HostState.complaints (h : HostState) (fs : List Frame) : List LogEntry :=
  fs.filterMap fun f =>
    if f.control ∈ ([0xEF, 0xFF, 0x03, 0x13] : List Byte) then
      if (h.channels[f.address.toNat / 4]?).all (fun c => !c.bound) = true then some (.unknownChannel (f.address.toNat / 4))
      else if (h.channels[f.address.toNat / 4]?).any Channel.failed = true then some (.channelFailed (f.address.toNat / 4))
      else none
    else if f.control ∈ ([0x2F, 0x3F, 0x63, 0x73, 0x0F, 0x1F, 0x43, 0x53] : List Byte) then none
    else some (.unsupportedFrameType f.control)

/-- The three operations that may touch the buffer (R19). -/
def Instr.TouchesBuffer : Instr → Bool
  | .fbIngest _ => true
  | .fbExtract => true
  | .fbDrain => true
  | .addrPack _ _ _ => false
  | .addrGetEa _ => false
  | .addrGetCr _ => false
  | .addrGetDlci _ => false
  | .addrSetEa _ _ => false
  | .addrSetCr _ _ => false
  | .addrSetDlci _ _ => false
  | .ctrlPack _ _ => false
  | .ctrlGetPf _ => false
  | .ctrlGetType _ => false
  | .ctrlSetPf _ _ => false
  | .ctrlSetType _ _ => false
  | .lenPack _ => false
  | .lenUnpack _ => false
  | .fcsCompute _ _ _ _ => false
  | .fcsCheck _ _ _ _ _ => false
  | .frameEncode _ => false
  | .frameDecode _ => false
  | .sabm _ => false
  | .ua _ => false
  | .dm _ => false
  | .disc _ => false
  | .uih _ => false
  | .ui _ => false

end Sys2Proof
end

