-- ==== Sys2Proof/Certificates/Slice0/Obligations.lean ====
section
/-! DEFINITION. The statements for the provers, in the order of the spec's files. -/

open Sys2Proof Sys2Proof.Machine

/-! ### Encoding of requests (30_encoding.md section 7) -/

/-- Every well-formed instruction is read back from its own bytes, on its own port, with every operand at every value
(R55, R56, R57, R41; the operand layout is log entry 1's). -/
def Obligations.DecodeEncodeRoundTrip : Prop :=
  ∀ i : Instr, i.WellFormed = true → decode (portOf i) (encode i) = .ok i

/-- A request has one spelling: bytes that decode to an instruction are that instruction's own encoding on its own port,
so no bit of a request is ignored (92_eei_decisions.md D16: nothing is truncated silently; log entry 1). -/
def Obligations.DecodedBytesAreTheEncoding : Prop :=
  ∀ (port : Port) (bytes : List Byte) (i : Instr),
    decode port bytes = .ok i → portOf i = port ∧ encode i = bytes

/-- Words written out from R56 and R41 decode to the instructions they stand for (the operand layout is the model's
choice, log entry 1). -/
def Obligations.SpecWordsDecode : Prop :=
  decode .operation [0x00, 0x0F, 0x01, 0x01] = .ok (.addrPack 0x0F 1 1) ∧
  decode .operation [0x0C, 0x3F, 0x01] = .ok (.ctrlSetType 0x3F .ua) ∧
  decode .operation [0x11, 0x07, 0xEF, 0x09, 0x02, 0x41, 0x54, 0x39] = .ok (.fcsCheck 0x07 0xEF 0x09 [0x41, 0x54] 0x39) ∧
  decode .operation [0x14, 0x0B, 0xEF, 0x01, 0xF9] = .ok (.frameEncode ⟨0x0B, 0xEF, [0xF9]⟩) ∧
  decode .operation [0x1A] = .ok .fbDrain ∧
  decode .control [0x3F] = .ok (.sabm 1) ∧ decode .control [0x03] = .ok (.ui 0)

/-- The eleven reserved select codes (R56): whatever bytes follow, the answer is `IllegalOp`, no result, no change of the
block's state. -/
def Obligations.ReservedSelectCodesAreIllegal : Prop :=
  ∀ code ∈ ([0x07, 0x0D, 0x12, 0x13, 0x16, 0x17, 0x1B, 0x1C, 0x1D, 0x1E, 0x1F] : List Byte), ∀ operands : List Byte,
    PortRaises .operation (code :: operands) .illegalOp

/-- The numeric FrameType codes (R57): as the operand of CTRL.PACK and of CTRL.SET_TYPE the codes 0 to 5 are the six
types in the source's order, and 6 and 7 are answered with `IllegalOp` (that a code takes a byte is the model's choice,
log entry 1; that `IllegalOp` wins over a PF byte above 1 behind it is log entry 17's deduction). -/
def Obligations.FrameTypeOperandCodes : Prop :=
  (∀ p ∈ ([(0, .sabm), (1, .ua), (2, .dm), (3, .disc), (4, .uih), (5, .ui)] : List (Byte × FrameType)),
    ∀ (c : Byte) (pf : BitVec 1),
      decode .operation [0x08, p.1, pf.setWidth 8] = .ok (.ctrlPack p.2 pf) ∧
      decode .operation [0x0C, c, p.1] = .ok (.ctrlSetType c p.2)) ∧
  (∀ k ∈ ([6, 7] : List Byte), ∀ c v : Byte,
    PortRaises .operation [0x08, k, v] .illegalOp ∧ PortRaises .operation [0x0C, c, k] .illegalOp)

/-- The control bytes that carry a type are exactly the twelve of R41; on the control port every other byte is answered
with `UnsupportedFrameType` (R48; that there is a control port is log entry 3). -/
def Obligations.ControlBytesWithAType : Prop :=
  ∀ c : Byte,
    (c ∈ ([0x2F, 0x3F, 0x63, 0x73, 0x0F, 0x1F, 0x43, 0x53, 0xEF, 0xFF, 0x03, 0x13] : List Byte) →
      ∃ i, decode .control [c] = .ok i ∧ encode i = [c]) ∧
    (c ∉ ([0x2F, 0x3F, 0x63, 0x73, 0x0F, 0x1F, 0x43, 0x53, 0xEF, 0xFF, 0x03, 0x13] : List Byte) →
      PortRaises .control [c] (.unsupportedFrameType c))

/-- An operand out of range is refused by name and never truncated (40_field_ops.md section 1, D16): a bit operand above 1,
a DLCI above 63, a FrameType code above 7, of every operation that has such operands. The operand bytes, the refusal as
an outcome of the step, and that the reserved codes 6 and 7 are no such case, are the model's choice (log entries 1, 10
and 17). -/
def Obligations.WideOperandsAreRefused : Prop :=
  ∀ (s : State) (rest : List Request) (a v w : Byte),
    (v.toNat > 1 → ∀ code ∈ ([0x04, 0x05, 0x0B] : List Byte),
      s.pending = .issue .operation [code, a, v] :: rest → step s = .refused (.malformedRequest .operandOutOfRange)) ∧
    (v.toNat > 63 → s.pending = .issue .operation [0x06, a, v] :: rest →
      step s = .refused (.malformedRequest .operandOutOfRange)) ∧
    (a.toNat > 63 ∨ v.toNat > 1 ∨ w.toNat > 1 → s.pending = .issue .operation [0x00, a, v, w] :: rest →
      step s = .refused (.malformedRequest .operandOutOfRange)) ∧
    (a.toNat > 7 ∨ a.toNat < 6 ∧ v.toNat > 1 → s.pending = .issue .operation [0x08, a, v] :: rest →
      step s = .refused (.malformedRequest .operandOutOfRange)) ∧
    (v.toNat > 7 → s.pending = .issue .operation [0x0C, a, v] :: rest →
      step s = .refused (.malformedRequest .operandOutOfRange))

/-! ### The step -/

/-- When the request at the head of the port decodes to an instruction, the step is `exec` of it on the state without
that request (R2, R12). -/
def Obligations.StepRunsTheDecodedInstruction : Prop :=
  ∀ (s : State) (port : Port) (bytes : List Byte) (rest : List Request) (i : Instr),
    s.pending = .issue port bytes :: rest → decode port bytes = .ok i →
      step s = exec i { s with pending := rest }

/-- The block does nothing between operations (R174): without a request the step changes nothing (that idling is a step
is the model's choice, log entry 11). -/
def Obligations.IdleBlockHoldsItsState : Prop :=
  ∀ s : State, s.pending = [] → step s = .next s

/-- The reset event empties `FB` and leaves the parameter (R190, R14). That the host's further requests stay and that
the response becomes none is the model's choice (log entries 2 and 12). -/
def Obligations.ResetRequestEmptiesTheBuffer : Prop :=
  ∀ (s : State) (rest : List Request), s.pending = .reset :: rest →
    step s = .next { config := s.config, fb := [], pending := rest, response := none }

/-- After reset `FB` is the empty sequence (R17): in the reset state, and after a reset request in any state. -/
def Obligations.FrameBufferIsEmptyAfterReset : Prop :=
  State.reset.fb = [] ∧
  ∀ (s t : State) (rest : List Request), s.pending = .reset :: rest → step s = .next t → t.fb = []

/-- The reset state meets the capacity invariant (R10, R17). -/
def Obligations.ResetStateIsWithinCapacity : Prop := State.reset.Inv

/-- `len(FB)` never exceeds `FB_CAP` (R10, R29), and the parameter never changes (R14): every step keeps both, from every
state within its capacity. -/
def Obligations.StepKeepsTheBufferWithinCapacity : Prop :=
  ∀ s t : State, s.Inv → step s = .next t → t.Inv ∧ t.config = s.config

/-- No request that the interface can express ever stops the block (R170: no traps): `k` steps give a next state, one
request served by each, from every state (which requests are expressible rests on the model's layout, log entries 1 and 10). -/
def Obligations.NoRunStops : Prop :=
  ∀ (k : Nat) (s : State), (∀ r ∈ s.pending, r.Expressible = true) →
    ∃ t, Sys2Proof.core.run k s = .next t ∧ t.pending = s.pending.drop k ∧ t.config = s.config

/-- Every instruction completes in every state (R170, R109, R126): no fault, no refusal. -/
def Obligations.EveryInstructionCompletes : Prop :=
  ∀ (i : Instr) (s : State), ∃ t, exec i s = .next t ∧ t.config = s.config ∧ t.pending = s.pending ∧
    t.response.isSome = true

/-- No operation's behaviour depends on the status of an earlier one (R13): a step that serves a request gives the same
outcome whatever was answered before (the stored response is the model's own field, log entry 2). -/
def Obligations.EarlierStatusIsNotReadable : Prop :=
  ∀ (s : State) (r : Option Response), s.pending ≠ [] → step { s with response := r } = step s

/-! ### Memory (20_memory.md) -/

/-- The two memory primitives (R22): what they give where their precondition holds, and that they give nothing where it
does not (the latter is the model's choice, log entry 13). -/
def Obligations.MemoryPrimitives : Prop :=
  (∀ (s : State) (i n : Nat), i + n ≤ s.fb.length →
    ∃ bytes, s.memRead i n = some bytes ∧ bytes.length = n ∧ ∀ k < n, bytes[k]? = s.readByte (i + k)) ∧
  (∀ (s : State) (i n : Nat), s.fb.length < i + n → s.memRead i n = none) ∧
  (∀ (s : State) (bytes : List Byte), s.fb.length + bytes.length ≤ s.config.fbCap →
    s.memWrite bytes = some { s with fb := s.fb ++ bytes }) ∧
  (∀ (s : State) (bytes : List Byte), s.config.fbCap < s.fb.length + bytes.length → s.memWrite bytes = none)

/-- FIFO order (R21): an instruction removes bytes at the head or appends its operand at the tail, and does nothing else
to `FB`. -/
def Obligations.BytesLeaveInTheOrderTheyEntered : Prop :=
  ∀ (i : Instr) (s t : State), exec i s = .next t →
    (∃ k, k ≤ s.fb.length ∧ t.fb = s.fb.drop k) ∨ (∃ bytes, i = .fbIngest bytes ∧ t.fb = s.fb ++ bytes)

/-- Ownership (R19): every instruction but FB.INGEST, FB.EXTRACT and FB.DRAIN completes, leaves the buffer and all else
but the response as it was, and answers the same in every two states: it neither reads nor writes `FB`. -/
def Obligations.OnlyBufferOperationsTouchTheBuffer : Prop :=
  ∀ i : Instr, i.TouchesBuffer = false → ∀ s s' : State,
    ∃ t t', exec i s = .next t ∧ exec i s' = .next t' ∧ t.response = t'.response ∧ s.OnlyResponds t ∧ s'.OnlyResponds t'

/-! ### Field operations (40_field_ops.md) -/

/-- ADDR.PACK (R60), select code 0x00: the byte is `dlci * 4 + cr * 2 + ea`. -/
def Obligations.AddrPackResult : Prop :=
  ∀ (dlci : BitVec 6) (cr ea : BitVec 1) (s : State),
    (encode (.addrPack dlci cr ea)).head? = some 0x00 ∧
    ∃ a : Byte, Returns (.addrPack dlci cr ea) s (.byte a) ∧ a.toNat = dlci.toNat * 4 + cr.toNat * 2 + ea.toNat

/-- ADDR.GET_EA, ADDR.GET_CR, ADDR.GET_DLCI (R61, R62, R63), select codes 0x01 to 0x03, as arithmetic on the byte's value. -/
def Obligations.AddrGettersResult : Prop :=
  ∀ (a : Byte) (s : State),
    (encode (.addrGetEa a)).head? = some 0x01 ∧ (encode (.addrGetCr a)).head? = some 0x02 ∧
    (encode (.addrGetDlci a)).head? = some 0x03 ∧
    (∃ v : BitVec 1, Returns (.addrGetEa a) s (.bit v) ∧ v.toNat = a.toNat % 2) ∧
    (∃ v : BitVec 1, Returns (.addrGetCr a) s (.bit v) ∧ v.toNat = a.toNat / 2 % 2) ∧
    (∃ d : BitVec 6, Returns (.addrGetDlci a) s (.dlci d) ∧ d.toNat = a.toNat / 4)

/-- ADDR.SET_EA, ADDR.SET_CR, ADDR.SET_DLCI (R64, R65, R66), select codes 0x04 to 0x06: the named bits become the operand and every other bit is
kept. -/
def Obligations.AddrSettersResult : Prop :=
  ∀ (a : Byte) (s : State),
    (∀ v d, (encode (.addrSetEa a v)).head? = some 0x04 ∧ (encode (.addrSetCr a v)).head? = some 0x05 ∧
      (encode (.addrSetDlci a d)).head? = some 0x06) ∧
    (∀ v : BitVec 1, ∃ b : Byte, Returns (.addrSetEa a v) s (.byte b) ∧
      b.getLsbD 0 = v.getLsbD 0 ∧ ∀ k, k ≠ 0 → b.getLsbD k = a.getLsbD k) ∧
    (∀ v : BitVec 1, ∃ b : Byte, Returns (.addrSetCr a v) s (.byte b) ∧
      b.getLsbD 1 = v.getLsbD 0 ∧ ∀ k, k ≠ 1 → b.getLsbD k = a.getLsbD k) ∧
    (∀ d : BitVec 6, ∃ b : Byte, Returns (.addrSetDlci a d) s (.byte b) ∧
      (∀ k < 6, b.getLsbD (k + 2) = d.getLsbD k) ∧ ∀ k < 2, b.getLsbD k = a.getLsbD k)

/-- CTRL.PACK (R67), select code 0x08: the type code of the table plus 16 times PF; the reserved numeric types 6 and 7 are `IllegalOp`
(that a type operand takes a byte is the model's choice, log entry 1, and that `IllegalOp` wins over a PF byte above 1 is
log entry 17's deduction). -/
def Obligations.CtrlPackResult : Prop :=
  (∀ p ∈ ([(.sabm, 0x2F), (.ua, 0x63), (.dm, 0x0F), (.disc, 0x43), (.uih, 0xEF), (.ui, 0x03)] : List (FrameType × Nat)),
    ∀ (pf : BitVec 1) (s : State),
      (encode (.ctrlPack p.1 pf)).head? = some 0x08 ∧
      ∃ c : Byte, Returns (.ctrlPack p.1 pf) s (.byte c) ∧ c.toNat = p.2 + pf.toNat * 16) ∧
  (∀ k ∈ ([6, 7] : List Byte), ∀ v : Byte, PortRaises .operation [0x08, k, v] .illegalOp)

/-- CTRL.GET_PF and CTRL.SET_PF (R68, R70), select codes 0x09 and 0x0B, for every byte, with or without a type. -/
def Obligations.CtrlPfResult : Prop :=
  ∀ (c : Byte) (s : State),
    (encode (.ctrlGetPf c)).head? = some 0x09 ∧ (∀ v, (encode (.ctrlSetPf c v)).head? = some 0x0B) ∧
    (∃ v : BitVec 1, Returns (.ctrlGetPf c) s (.bit v) ∧ v.toNat = c.toNat / 16 % 2) ∧
    (∀ v : BitVec 1, ∃ b : Byte, Returns (.ctrlSetPf c v) s (.byte b) ∧
      b.getLsbD 4 = v.getLsbD 0 ∧ ∀ k, k ≠ 4 → b.getLsbD k = c.getLsbD k)

/-- CTRL.GET_TYPE (R69), select code 0x0A: the twelve bytes with a type, and `UnsupportedFrameType` with the byte for the other 244. -/
def Obligations.CtrlGetTypeResult : Prop :=
  (∀ c : Byte, (encode (.ctrlGetType c)).head? = some 0x0A) ∧
  (∀ p ∈ ([(0x2F, .sabm), (0x3F, .sabm), (0x63, .ua), (0x73, .ua), (0x0F, .dm), (0x1F, .dm), (0x43, .disc), (0x53, .disc),
      (0xEF, .uih), (0xFF, .uih), (0x03, .ui), (0x13, .ui)] : List (Byte × FrameType)),
    ∀ s : State, Returns (.ctrlGetType p.1) s (.frameType p.2)) ∧
  (∀ c : Byte, c ∉ ([0x2F, 0x3F, 0x63, 0x73, 0x0F, 0x1F, 0x43, 0x53, 0xEF, 0xFF, 0x03, 0x13] : List Byte) →
    ∀ s : State, Raises (.ctrlGetType c) s (.unsupportedFrameType c))

/-- CTRL.SET_TYPE (R71), select code 0x0C: the type's code with the PF bit of `c` kept; the reserved numeric types 6 and 7 are
`IllegalOp` (that a type operand takes a byte is the model's choice, log entry 1). -/
def Obligations.CtrlSetTypeResult : Prop :=
  (∀ p ∈ ([(.sabm, 0x2F), (.ua, 0x63), (.dm, 0x0F), (.disc, 0x43), (.uih, 0xEF), (.ui, 0x03)] : List (FrameType × Nat)),
    ∀ (c : Byte) (s : State),
      (encode (.ctrlSetType c p.1)).head? = some 0x0C ∧
      ∃ b : Byte, Returns (.ctrlSetType c p.1) s (.byte b) ∧ b.toNat = p.2 + c.toNat / 16 % 2 * 16) ∧
  (∀ k ∈ ([6, 7] : List Byte), ∀ c : Byte, PortRaises .operation [0x0C, c, k] .illegalOp)

/-- LEN.PACK (R72), select code 0x0E: twice the length plus one up to 127, `LengthOverflow` with the length above. -/
def Obligations.LenPackResult : Prop :=
  ∀ (len : Nat) (s : State), (encode (.lenPack len)).head? = some 0x0E ∧
    (len ≤ 127 → ∃ b : Byte, Returns (.lenPack len) s (.byte b) ∧ b.toNat = 2 * len + 1) ∧
    (127 < len → Raises (.lenPack len) s (.lengthOverflow len))

/-- LEN.UNPACK (R73), select code 0x0F: half of an odd byte, `UnsupportedLength` with the byte for an even one. -/
def Obligations.LenUnpackResult : Prop :=
  ∀ (b : Byte) (s : State), (encode (.lenUnpack b)).head? = some 0x0F ∧
    (b.toNat % 2 = 1 → ∃ n : BitVec 7, Returns (.lenUnpack b) s (.length n) ∧ n.toNat = b.toNat / 2) ∧
    (b.toNat % 2 = 0 → Raises (.lenUnpack b) s (.unsupportedLength b))

/-- The laws of R75, each between results that the operations return. -/
def Obligations.FieldOperationLaws : Prop :=
  (∀ (a : Byte) (s : State), ∃ (d : BitVec 6) (v w : BitVec 1),
    Returns (.addrGetDlci a) s (.dlci d) ∧ Returns (.addrGetCr a) s (.bit v) ∧ Returns (.addrGetEa a) s (.bit w) ∧
    Returns (.addrPack d v w) s (.byte a)) ∧
  (∀ (d : BitVec 6) (v w : BitVec 1) (s : State), ∃ a : Byte, Returns (.addrPack d v w) s (.byte a) ∧
    Returns (.addrGetDlci a) s (.dlci d) ∧ Returns (.addrGetCr a) s (.bit v) ∧ Returns (.addrGetEa a) s (.bit w)) ∧
  (∀ (a : Byte) (v : BitVec 1) (s : State), ∃ (b : Byte) (w : BitVec 1) (d : BitVec 6),
    Returns (.addrSetEa a v) s (.byte b) ∧ Returns (.addrGetEa b) s (.bit v) ∧
    Returns (.addrGetCr a) s (.bit w) ∧ Returns (.addrGetCr b) s (.bit w) ∧
    Returns (.addrGetDlci a) s (.dlci d) ∧ Returns (.addrGetDlci b) s (.dlci d)) ∧
  (∀ (a : Byte) (v : BitVec 1) (s : State), ∃ (b : Byte) (w : BitVec 1) (d : BitVec 6),
    Returns (.addrSetCr a v) s (.byte b) ∧ Returns (.addrGetCr b) s (.bit v) ∧
    Returns (.addrGetEa a) s (.bit w) ∧ Returns (.addrGetEa b) s (.bit w) ∧
    Returns (.addrGetDlci a) s (.dlci d) ∧ Returns (.addrGetDlci b) s (.dlci d)) ∧
  (∀ (a : Byte) (d : BitVec 6) (s : State), ∃ (b : Byte) (v w : BitVec 1),
    Returns (.addrSetDlci a d) s (.byte b) ∧ Returns (.addrGetDlci b) s (.dlci d) ∧
    Returns (.addrGetEa a) s (.bit v) ∧ Returns (.addrGetEa b) s (.bit v) ∧
    Returns (.addrGetCr a) s (.bit w) ∧ Returns (.addrGetCr b) s (.bit w)) ∧
  (∀ (t : FrameType) (v : BitVec 1) (s : State), ∃ c : Byte, Returns (.ctrlPack t v) s (.byte c) ∧
    Returns (.ctrlGetType c) s (.frameType t) ∧ Returns (.ctrlGetPf c) s (.bit v)) ∧
  (∀ (c : Byte) (t : FrameType) (s : State), Returns (.ctrlGetType c) s (.frameType t) →
    ∃ v : BitVec 1, Returns (.ctrlGetPf c) s (.bit v) ∧ Returns (.ctrlPack t v) s (.byte c)) ∧
  (∀ (c : Byte) (v : BitVec 1) (s : State), ∃ b : Byte, Returns (.ctrlSetPf c v) s (.byte b) ∧
    Returns (.ctrlGetPf b) s (.bit v) ∧
    (∀ t, Returns (.ctrlGetType b) s (.frameType t) ↔ Returns (.ctrlGetType c) s (.frameType t)) ∧
    (Raises (.ctrlGetType b) s (.unsupportedFrameType b) ↔ Raises (.ctrlGetType c) s (.unsupportedFrameType c))) ∧
  (∀ (c : Byte) (t : FrameType) (s : State), ∃ (b : Byte) (v : BitVec 1), Returns (.ctrlSetType c t) s (.byte b) ∧
    Returns (.ctrlGetType b) s (.frameType t) ∧ Returns (.ctrlGetPf c) s (.bit v) ∧ Returns (.ctrlGetPf b) s (.bit v)) ∧
  (∀ (len : Nat) (s : State), len ≤ 127 → ∃ (b : Byte) (n : BitVec 7), Returns (.lenPack len) s (.byte b) ∧
    Returns (.lenUnpack b) s (.length n) ∧ n.toNat = len) ∧
  (∀ (b : Byte) (s : State), b.toNat % 2 = 1 → ∃ n : BitVec 7, Returns (.lenUnpack b) s (.length n) ∧
    Returns (.lenPack n.toNat) s (.byte b))

/-! ### Frame types (30_encoding.md section 3) -/

/-- The six frame-type rows: the control byte, the type, PF, and the checksum coverage, which is header only for all but
UI (R40, R41, R52). That the rows can be put to the block as control bytes is the model's choice (log entry 3). -/
def Obligations.FrameTypeRowsAnswer : Prop :=
  ∀ (pf : BitVec 1) (s : State), ∃ c0 c1 c2 c3 c4 c5 : Byte,
    Returns (.sabm pf) s (.controlInfo c0 .sabm pf .header) ∧ c0.toNat = 0x2F + pf.toNat * 16 ∧
    Returns (.ua pf) s (.controlInfo c1 .ua pf .header) ∧ c1.toNat = 0x63 + pf.toNat * 16 ∧
    Returns (.dm pf) s (.controlInfo c2 .dm pf .header) ∧ c2.toNat = 0x0F + pf.toNat * 16 ∧
    Returns (.disc pf) s (.controlInfo c3 .disc pf .header) ∧ c3.toNat = 0x43 + pf.toNat * 16 ∧
    Returns (.uih pf) s (.controlInfo c4 .uih pf .header) ∧ c4.toNat = 0xEF + pf.toNat * 16 ∧
    Returns (.ui pf) s (.controlInfo c5 .ui pf .headerAndContent) ∧ c5.toNat = 0x03 + pf.toNat * 16

/-- A control byte without a type (R48): CTRL.GET_TYPE raises `UnsupportedFrameType`, FRAME.DECODE returns such a frame
like any other, and its checksum covers the header alone. -/
def Obligations.UntypedControlByteStillDecodes : Prop :=
  ∀ (f : Frame) (s : State),
    (∀ code ∈ ([0x2F, 0x63, 0x0F, 0x43, 0xEF, 0x03] : List Byte), f.control &&& 0xEF ≠ code) →
    f.content.length ≤ 127 →
    Raises (.ctrlGetType f.control) s (.unsupportedFrameType f.control) ∧
    ∃ (li : Byte) (wire : List Byte),
      Returns (.lenPack f.content.length) s (.byte li) ∧
      Returns (.fcsCompute f.address f.control li f.content) s (.byte (0xFF ^^^ crc8Rohc [f.address, f.control, li])) ∧
      Returns (.frameEncode f) s (.bytes wire) ∧
      Returns (.frameDecode wire) s (.decoded ⟨f, wire.length, 0⟩)

/-! ### The checksum (41_fcs.md) -/

/-- FCS.COMPUTE (R92), select code 0x10: over the header and the content for type UI, PF ignored, over the header alone otherwise. -/
def Obligations.FcsComputeResult : Prop :=
  ∀ (address control li : Byte) (content : List Byte) (s : State),
    (encode (.fcsCompute address control li content)).head? = some 0x10 ∧
    (control &&& 0xEF = 0x03 → Returns (.fcsCompute address control li content) s
      (.byte (0xFF ^^^ crc8Rohc ([address, control, li] ++ content)))) ∧
    (control &&& 0xEF ≠ 0x03 → Returns (.fcsCompute address control li content) s
      (.byte (0xFF ^^^ crc8Rohc [address, control, li])))

/-- FCS.CHECK (R93), select code 0x11: the result bit is 1 exactly when FCS.COMPUTE of the same operands returns the received byte. -/
def Obligations.FcsCheckResult : Prop :=
  ∀ (address control li : Byte) (content : List Byte) (received : Byte) (s : State),
    (encode (.fcsCheck address control li content received)).head? = some 0x11 ∧
    ∃ (fcs : Byte) (ok : BitVec 1), Returns (.fcsCompute address control li content) s (.byte fcs) ∧
      Returns (.fcsCheck address control li content received) s (.bit ok) ∧ (ok = 1 ↔ fcs = received)

/-- The CRC (R90, R91) is the bit-serial loop with the initial value 0xFF and, for each byte, eight inner steps: shift
right, and exclusive-or with 0xE0 where bit 0 was set. Its table form (R94): each of the listed entries is the result of
the eight inner steps on its index, and the form equals the bit-serial one for every input. -/
def Obligations.CrcTableFormAgrees : Prop :=
  (∀ bytes : List Byte, crc8Rohc bytes =
    bytes.foldl (fun crc b => (fun c : Byte => if c.getLsbD 0 then (c >>> 1) ^^^ 0xE0 else c >>> 1)^[8] (crc ^^^ b)) 0xFF) ∧
  (∀ x : Byte, crcTable[x.toNat]? =
    some ((fun c : Byte => if c.getLsbD 0 then (c >>> 1) ^^^ 0xE0 else c >>> 1)^[8] x)) ∧
  ∀ bytes : List Byte, crc8ByTable bytes = crc8Rohc bytes

/-- The residue of R95: a sequence followed by its own complemented CRC always gives 0xCF. -/
def Obligations.CrcResidueIsConstant : Prop :=
  ∀ bytes : List Byte, crc8Rohc (bytes ++ [0xFF ^^^ crc8Rohc bytes]) = 0xCF

/-- A change of one header byte is never missed by FCS.CHECK (from R91 to R93: each of the eight inner steps is one to
one): of the address, of the length indicator, and of the control byte where it selects the coverage it selected before
(R52). -/
def Obligations.OneChangedHeaderByteIsDetected : Prop :=
  ∀ (address control li x : Byte) (content : List Byte) (fcs : Byte) (s : State),
    Returns (.fcsCompute address control li content) s (.byte fcs) →
    (x ≠ address → Returns (.fcsCheck x control li content fcs) s (.bit 0)) ∧
    (x ≠ control → (x &&& 0xEF = 0x03 ↔ control &&& 0xEF = 0x03) →
      Returns (.fcsCheck address x li content fcs) s (.bit 0)) ∧
    (x ≠ li → Returns (.fcsCheck address control x content fcs) s (.bit 0))

/-! ### Frame encode and decode (42_frame_codec.md) -/

/-- FRAME.ENCODE (R100), select code 0x14: the wire form of R35 with exactly `L + 6` bytes for a content of at most 127 bytes,
`LengthOverflow` and no bytes above. -/
def Obligations.FrameEncodeResult : Prop :=
  ∀ (f : Frame) (s : State), (encode (.frameEncode f)).head? = some 0x14 ∧
    (f.content.length ≤ 127 → ∃ (li fcs : Byte) (wire : List Byte),
      li.toNat = 2 * f.content.length + 1 ∧
      Returns (.fcsCompute f.address f.control li f.content) s (.byte fcs) ∧
      Returns (.frameEncode f) s (.bytes wire) ∧
      wire = [0xF9, f.address, f.control, li] ++ f.content ++ [fcs, 0xF9] ∧ wire.length = f.content.length + 6) ∧
    (127 < f.content.length → Raises (.frameEncode f) s (.lengthOverflow f.content.length))

/-- FRAME.DECODE (R101), select code 0x15, on every shape of input: `g` is what stands before the first FLAG. The clauses exclude each other
and leave no input out. -/
def Obligations.FrameDecodeResult : Prop :=
  (∀ input : List Byte, (encode (.frameDecode input)).head? = some 0x15) ∧
  (∀ (input : List Byte) (s : State), FLAG ∉ input → Raises (.frameDecode input) s .noFlag) ∧
  (∀ (g rest : List Byte) (s : State), FLAG ∉ g → rest.length < 3 →
    Raises (.frameDecode (g ++ [FLAG] ++ rest)) s .truncated) ∧
  (∀ (g tail : List Byte) (a c li : Byte) (s : State), FLAG ∉ g →
    (li.toNat % 2 = 0 → Raises (.frameDecode (g ++ [FLAG, a, c, li] ++ tail)) s (.unsupportedLength li)) ∧
    (li.toNat % 2 = 1 → tail.length < li.toNat / 2 + 2 →
      Raises (.frameDecode (g ++ [FLAG, a, c, li] ++ tail)) s .truncated)) ∧
  (∀ (g content tail : List Byte) (a c li received closing : Byte) (s : State), FLAG ∉ g → li.toNat % 2 = 1 →
    content.length = li.toNat / 2 → ∃ fcs : Byte, Returns (.fcsCompute a c li content) s (.byte fcs) ∧
    (closing ≠ FLAG →
      Raises (.frameDecode (g ++ [FLAG, a, c, li] ++ content ++ [received, closing] ++ tail)) s .noClosingFlag) ∧
    (closing = FLAG → received ≠ fcs →
      Raises (.frameDecode (g ++ [FLAG, a, c, li] ++ content ++ [received, closing] ++ tail)) s .fcsMismatch) ∧
    (closing = FLAG → received = fcs →
      Returns (.frameDecode (g ++ [FLAG, a, c, li] ++ content ++ [received, closing] ++ tail)) s
        (.decoded ⟨⟨a, c, content⟩, g.length + content.length + 6, g.length⟩)))

/-- FRAME.DECODE is total and changes no state (R109): every input gives its results or one of the five failure
statuses. -/
def Obligations.FrameDecodeIsTotal : Prop :=
  ∀ (input : List Byte) (s : State),
    (∃ d, Returns (.frameDecode input) s (.decoded d)) ∨ Raises (.frameDecode input) s .noFlag ∨
    Raises (.frameDecode input) s .truncated ∨ (∃ li, Raises (.frameDecode input) s (.unsupportedLength li)) ∨
    Raises (.frameDecode input) s .noClosingFlag ∨ Raises (.frameDecode input) s .fcsMismatch

/-- The round trip (R110) with its consequences: behind any bytes without a FLAG and before any bytes a frame decodes to
itself with the exact counts; bytes at or beyond `consumed` do not change a success; and what a success consumed behind
the skipped bytes is the frame's own encoding. -/
def Obligations.FrameRoundTrip : Prop :=
  (∀ (f : Frame) (g t : List Byte) (s : State), f.content.length ≤ 127 → FLAG ∉ g →
    ∃ wire, Returns (.frameEncode f) s (.bytes wire) ∧ wire.length = f.content.length + 6 ∧
      Returns (.frameDecode (g ++ wire ++ t)) s (.decoded ⟨f, g.length + wire.length, g.length⟩)) ∧
  (∀ (input t : List Byte) (d : Decoded) (s : State), Returns (.frameDecode input) s (.decoded d) →
    Returns (.frameDecode (input.take d.consumed ++ t)) s (.decoded d) ∧
    Returns (.frameEncode d.frame) s (.bytes ((input.drop d.skipped).take (d.consumed - d.skipped))))

/-! ### The FrameBuffer (43_frame_buffer.md) -/

/-- FB.INGEST (R120), select code 0x18: the bytes behind the tail and every older byte where it was, or, where they do not fit, `Overflow`
and nothing stored. -/
def Obligations.IngestResult : Prop :=
  ∀ (bytes : List Byte) (s : State), (encode (.fbIngest bytes)).head? = some 0x18 ∧
    (s.fb.length + bytes.length ≤ s.config.fbCap → ∃ t, exec (.fbIngest bytes) s = .next t ∧
      t.response = some ⟨.ok, .none⟩ ∧ t.config = s.config ∧ t.pending = s.pending ∧ t.fb = s.fb ++ bytes ∧
      (∀ i < s.fb.length, t.readByte i = s.readByte i) ∧ ∀ j, t.readByte (s.fb.length + j) = bytes[j]?) ∧
    (s.config.fbCap < s.fb.length + bytes.length →
      Raises (.fbIngest bytes) s (.overflow s.fb.length bytes.length))

/-- FB.EXTRACT (R122), select code 0x19: always a next state; with a frame where FRAME.DECODE of the buffer returns one, with `NoFrame` and
the bytes through the first FLAG gone, or all of them, where it raises any status. -/
def Obligations.ExtractResult : Prop :=
  encode .fbExtract = [0x19] ∧
  ∀ s : State, ∃ t, exec .fbExtract s = .next t ∧ t.config = s.config ∧ t.pending = s.pending ∧
    (∀ d, Returns (.frameDecode s.fb) s (.decoded d) →
      t.response = some ⟨.ok, .frame d.frame⟩ ∧ t.fb = s.fb.drop d.consumed) ∧
    (∀ st, Raises (.frameDecode s.fb) s st → t.response = some ⟨.noFrame, .none⟩ ∧
      (FLAG ∉ s.fb → t.fb = []) ∧ ∀ g rest, FLAG ∉ g → s.fb = g ++ FLAG :: rest → t.fb = rest)

/-- Forward progress (R126): a non-empty buffer gets strictly shorter, by six bytes or more with a frame, by the bytes
through the first FLAG or by all without one; an empty one stays empty. -/
def Obligations.ExtractMakesProgress : Prop :=
  ∀ s : State, ∃ t, exec .fbExtract s = .next t ∧
    (0 < s.fb.length → t.fb.length < s.fb.length) ∧
    (∀ f, t.response = some ⟨.ok, .frame f⟩ → t.fb.length + 6 ≤ s.fb.length) ∧
    (t.response = some ⟨.noFrame, .none⟩ →
      (FLAG ∉ s.fb → t.fb = []) ∧
      ∀ g rest, FLAG ∉ g → s.fb = g ++ FLAG :: rest → t.fb.length + (g.length + 1) = s.fb.length) ∧
    (s.fb = [] → t.fb = [] ∧ t.response = some ⟨.noFrame, .none⟩)

/-- FB.DRAIN (R125), select code 0x1A, is the loop of FB.EXTRACT: without a FLAG it answers no frames and changes nothing; with one it does
what FB.EXTRACT and then FB.DRAIN do, and its frames are the extracted one, if any, and then the
others. It returns at most a sixth of the buffer's length in frames. -/
def Obligations.DrainRepeatsExtract : Prop :=
  encode .fbDrain = [0x1A] ∧
  (∀ s : State, FLAG ∉ s.fb → Returns .fbDrain s (.frames [])) ∧
  (∀ s : State, FLAG ∈ s.fb → ∃ (t u v : State) (fs : List Frame), exec .fbDrain s = .next t ∧
    exec .fbExtract s = .next u ∧ exec .fbDrain u = .next v ∧ v.response = some ⟨.ok, .frames fs⟩ ∧
    t.fb = v.fb ∧ t.config = s.config ∧ t.pending = s.pending ∧
    ((∃ f, u.response = some ⟨.ok, .frame f⟩ ∧ t.response = some ⟨.ok, .frames (f :: fs)⟩) ∨
      (u.response = some ⟨.noFrame, .none⟩ ∧ t.response = some ⟨.ok, .frames fs⟩))) ∧
  (∀ (s t : State) (fs : List Frame), exec .fbDrain s = .next t → t.response = some ⟨.ok, .frames fs⟩ →
    fs.length ≤ s.fb.length / 6)

/-- The state after FB.DRAIN (R127): no FLAG is left, and exactly the bytes behind the last FLAG stay. -/
def Obligations.DrainLeavesTheResidue : Prop :=
  ∀ s : State, ∃ (t : State) (fs : List Frame), exec .fbDrain s = .next t ∧ t.response = some ⟨.ok, .frames fs⟩ ∧
    t.config = s.config ∧ t.pending = s.pending ∧ FLAG ∉ t.fb ∧
    (∀ g r, s.fb = g ++ FLAG :: r → FLAG ∉ r → t.fb = r) ∧ (FLAG ∉ s.fb → fs = [] ∧ t.fb = s.fb)

/-- On a FLAG-less buffer FB.EXTRACT clears and FB.DRAIN leaves it untouched (R208). -/
def Obligations.ExtractAndDrainDifferWithoutAFlag : Prop :=
  ∀ s : State, FLAG ∉ s.fb →
    exec .fbExtract s = .next { s with fb := [], response := some ⟨.noFrame, .none⟩ } ∧
    exec .fbDrain s = .next { s with response := some ⟨.ok, .frames []⟩ }

/-- Safety of acceptance (R129): a frame that FB.EXTRACT returns is a span of the buffer that is the frame's own wire
form, and the buffer keeps what followed it; the frames FB.DRAIN returns are such spans, in order, not overlapping. -/
def Obligations.OnlyValidSpansAreAccepted : Prop :=
  (∀ (s t : State) (f : Frame), exec .fbExtract s = .next t → t.response = some ⟨.ok, .frame f⟩ →
    ∃ g wire, encodeFrame f = .ok wire ∧ s.fb = g ++ wire ++ t.fb) ∧
  (∀ (s t : State) (fs : List Frame), exec .fbDrain s = .next t → t.response = some ⟨.ok, .frames fs⟩ →
    ∃ (gaps wires : List (List Byte)) (r : List Byte), List.Forall₂ (fun f w => encodeFrame f = .ok w) fs wires ∧
      gaps.length = wires.length ∧ s.fb = (List.zipWith (fun g w => g ++ w) gaps wires).flatten ++ r)

/-- Clean stream (R129): the wire forms of any frames, behind leading bytes without a FLAG, ingested into an empty buffer
in any pieces that fit, are returned by one FB.DRAIN in order, and the buffer is empty afterwards (the leading bytes stay
where there is no frame at all). -/
def Obligations.CleanStreamIsReturnedWhole : Prop :=
  ∀ (s : State) (g : List Byte) (fs : List Frame) (wires pieces : List (List Byte)),
    s.fb = [] → FLAG ∉ g → List.Forall₂ (fun f w => encodeFrame f = .ok w) fs wires →
    pieces.flatten = g ++ wires.flatten → pieces.flatten.length ≤ s.config.fbCap →
    ∃ t, execAll (pieces.map .fbIngest ++ [.fbDrain]) s = .next t ∧ t.response = some ⟨.ok, .frames fs⟩ ∧
      t.fb = if fs = [] then g else []

/-- A frame split across an extraction is lost (R201): its first part is drained without a frame, losing the opening
FLAG, and when the rest has arrived it is discarded in turn. The parts hold no FLAG but the opening and the closing
one. -/
def Obligations.SplitFrameIsLost : Prop :=
  ∀ (s : State) (f : Frame) (first second : List Byte), s.fb = [] → encodeFrame f = .ok ([FLAG] ++ first ++ second ++ [FLAG]) →
    FLAG ∉ first → FLAG ∉ second → f.content.length + 6 ≤ s.config.fbCap →
    ∃ t u, execAll [.fbIngest ([FLAG] ++ first), .fbDrain] s = .next t ∧
      t.response = some ⟨.ok, .frames []⟩ ∧ t.fb = first ∧
      execAll [.fbIngest (second ++ [FLAG]), .fbDrain] t = .next u ∧
      u.response = some ⟨.ok, .frames []⟩ ∧ u.fb = []

/-- A FLAG is never shared (R202): with a single FLAG between two frames the first is returned and takes the FLAG with
it; the second, which holds no other FLAG, is lost. -/
def Obligations.SharedFlagLosesTheSecondFrame : Prop :=
  ∀ (s : State) (f1 f2 : Frame) (w1 body : List Byte), encodeFrame f1 = .ok w1 →
    encodeFrame f2 = .ok ([FLAG] ++ body ++ [FLAG]) → FLAG ∉ body → s.fb = w1 ++ body ++ [FLAG] →
    ∃ t u, exec .fbExtract s = .next t ∧ t.response = some ⟨.ok, .frame f1⟩ ∧ t.fb = body ++ [FLAG] ∧
      exec .fbExtract t = .next u ∧ u.response = some ⟨.noFrame, .none⟩ ∧ u.fb = []

/-! ### The host's model (44_host_usage.md) -/

/-- Start-up (R142, R143): one SABM frame with PF = 1 and one placeholder byte to each id in ascending order, if no write
fails; every channel OPEN afterwards and the block's buffer untouched, whatever the writes answer (log entries 15 and
20). -/
def Obligations.StartUpSendsSabmToEveryChannel : Prop :=
  ∀ (p : HostParams) (answers : List WriteAnswer), p.WellFormed = true →
    ((System.created p answers).startUp p).host.channels =
      List.replicate p.nChannels { state := .opened, bound := true, failed := false } ∧
    ((System.created p answers).startUp p).block.fb = [] ∧
    ((∀ a ∈ answers, a = .written) → ∃ wires : List (List Byte), wires.length = p.nChannels ∧
      ((System.created p answers).startUp p).host.serialOut = wires.flatten ∧
      ∀ id < p.nChannels, ∃ a : Byte, a.toNat = id * 4 + p.crCommand.toNat * 2 + 1 ∧
        ∃ w, wires[id]? = some w ∧ encodeFrame ⟨a, 0x3F, [p.placeholder]⟩ = .ok w)

/-- Routing (R144, R145). A UIH or UI frame for a bound channel in service whose write does not fail has its content
delivered to that channel verbatim, and nothing else happens; one for an id outside the table, or with no endpoint bound
to it, is logged and dropped. A frame whose control byte carries no type is logged and dropped. A received SABM, UA, DM
or DISC has no effect on the host. None touches the block's buffer. (What a channel out of service does is log entry
16's.) -/
def Obligations.RoutingDeliversOrDrops : Prop :=
  ∀ (p : HostParams) (sys : System) (f : Frame),
    (sys.route p f).block.fb = sys.block.fb ∧
    (f.control ∈ ([0xEF, 0xFF, 0x03, 0x13] : List Byte) →
      (∀ c, sys.host.channels[f.address.toNat / 4]? = some c → c.bound = true → c.failed = false →
        sys.host.writeAnswers.head? ≠ some .failed →
        (sys.route p f).host = { sys.host with
          delivered := sys.host.delivered ++ [(f.address.toNat / 4, f.content)]
          writeAnswers := sys.host.writeAnswers.tail }) ∧
      ((∀ c, sys.host.channels[f.address.toNat / 4]? = some c → c.bound = false) →
        (sys.route p f).host = { sys.host with log := sys.host.log ++ [.unknownChannel (f.address.toNat / 4)] })) ∧
    (f.control ∈ ([0x2F, 0x3F, 0x63, 0x73, 0x0F, 0x1F, 0x43, 0x53] : List Byte) → (sys.route p f).host = sys.host) ∧
    (f.control ∉ ([0x2F, 0x3F, 0x63, 0x73, 0x0F, 0x1F, 0x43, 0x53, 0xEF, 0xFF, 0x03, 0x13] : List Byte) →
      (sys.route p f).host = { sys.host with log := sys.host.log ++ [.unsupportedFrameType f.control] })

/-- Shutdown (R148, R149): if no write fails, a DISC frame with the placeholder to every non-zero id in the host's order
and then the close-down bytes as one UIH frame on channel 0. Whatever the writes answer, the session is CLOSED, every
endpoint is released (R18), and the block's buffer and what was delivered stay; the process's end then destroys the
channel table (R141). That every channel, channel 0 among them, is CLOSED at the end and that the loop stops is the
model's choice (log entry 15), as is that a failed write does not end the sequence (log entry 20). -/
def Obligations.ShutDownSendsDiscThenCloseDown : Prop :=
  ∀ (p : HostParams) (sys : System), p.WellFormed = true → p.cldBytes.length ≤ 127 →
    ((∀ a ∈ sys.host.writeAnswers, a = .written) → ∃ (wires : List (List Byte)) (closing : List Byte),
      (sys.shutDown p).host.serialOut = sys.host.serialOut ++ wires.flatten ++ closing ∧
      List.Forall₂ (fun id w => ∃ a c : Byte, a.toNat = id * 4 + p.crDisc.toNat * 2 + 1 ∧
        c.toNat = 0x43 + p.pfDisc.toNat * 16 ∧ encodeFrame ⟨a, c, [p.placeholder]⟩ = .ok w) p.discOrder wires ∧
      ∃ a c : Byte, a.toNat = p.crClose.toNat * 2 + 1 ∧ c.toNat = 0xEF + p.pfClose.toNat * 16 ∧
        encodeFrame ⟨a, c, p.cldBytes⟩ = .ok closing) ∧
    (sys.shutDown p).host.sessionClosed = true ∧ (sys.shutDown p).host.running = false ∧
    (sys.shutDown p).host.channels =
      sys.host.channels.map (fun c => { state := .closed, bound := false, failed := c.failed }) ∧
    (sys.shutDown p).host.delivered = sys.host.delivered ∧ (sys.shutDown p).block.fb = sys.block.fb ∧
    (sys.shutDown p).exitProcess.host.channels = []

/-- A transport error (R151) is logged and ends the iteration's work: a delivery that fails delivers nothing, a frame
whose write to the serial stream fails is not sent, nor are the further pieces of its read, what the wait reported after
the failing descriptor is not served, and a failing read is such an error too. Under `fatal` the process ends. Under
`perChannel` the loop runs on and the affected channel alone changes: it is out of service. The serial stream affects no
channel. (What a policy does, and that the serial stream affects no channel, is log entry 16's; the list of descriptors
is log entry 19's, the answers to writes are log entry 20's.) -/
def Obligations.TransportErrorEndsTheIteration : Prop :=
  (∀ (p : HostParams) (sys : System) (f : Frame) (c : Channel), f.control ∈ ([0xEF, 0xFF, 0x03, 0x13] : List Byte) →
    sys.host.channels[f.address.toNat / 4]? = some c → c.bound = true → c.failed = false →
    sys.host.writeAnswers.head? = some .failed →
    (sys.route p f).host.delivered = sys.host.delivered ∧ (sys.route p f).host.workEnded = true ∧
    (sys.route p f).host.log = sys.host.log ++ [.transportIOError (some (f.address.toNat / 4))] ∧
    (p.ioError = .fatal → (sys.route p f).host.running = false ∧ (sys.route p f).host.channels = []) ∧
    (p.ioError = .perChannel → (sys.route p f).host.running = sys.host.running ∧
      (sys.route p f).host.channels[f.address.toNat / 4]? = some { c with failed := true } ∧
      ∀ id, id ≠ f.address.toNat / 4 → (sys.route p f).host.channels[id]? = sys.host.channels[id]?)) ∧
  (∀ (p : HostParams) (sys : System) (id : Nat) (c : Channel) (available : List Byte),
    sys.host.channels[id]? = some c → c.bound = true → c.failed = false → sys.host.workEnded = false →
    sys.host.writeAnswers.head? = some .failed → (available.take p.epScratch).length ≤ 127 ∨ p.oversize ≠ .drop →
    (sys.outbound p id available).host.serialOut = sys.host.serialOut ∧
    (sys.outbound p id available).host.delivered = sys.host.delivered ∧
    (sys.outbound p id available).host.workEnded = true ∧
    (sys.outbound p id available).host.log = sys.host.log ++ [.transportIOError none] ∧
    (sys.outbound p id available).block.fb = sys.block.fb ∧
    (p.ioError = .fatal → (sys.outbound p id available).host.running = false ∧
      (sys.outbound p id available).host.channels = []) ∧
    (p.ioError = .perChannel → (sys.outbound p id available).host.running = sys.host.running ∧
      (sys.outbound p id available).host.channels = sys.host.channels)) ∧
  (∀ (p : HostParams) (sys : System) (served rest : List LoopEvent), sys.host.running = true →
    sys.host.cancelled = false → (sys.iterate p served).host.workEnded = true →
    sys.iterate p (served ++ rest) = sys.iterate p served) ∧
  (∀ (p : HostParams) (sys : System) (channel : Option Nat),
    let t := sys.serve p (channel.elim .serialError .endpointError)
    t.host.log = sys.host.log ++ [.transportIOError channel] ∧ t.host.workEnded = true ∧
    t.host.delivered = sys.host.delivered ∧ t.host.serialOut = sys.host.serialOut ∧ t.block = sys.block ∧
    (p.ioError = .fatal → t.host.running = false ∧ t.host.channels = []) ∧
    (p.ioError = .perChannel → t.host.running = sys.host.running ∧ ∀ id, t.host.channels[id]? =
      (sys.host.channels[id]?).map (fun c => if channel = some id then { c with failed := true } else c)))

/-- Endpoints are released exactly at shutdown and channels are neither created nor destroyed before it (R18, R141), and
nothing the host receives changes a channel's state (R147): an iteration after which the loop runs on leaves every
entry's state and binding. One without cancellation after which it does not run on has logged a transport error, under
the policy that makes it fatal to the process (R151); that the process then ends with its table gone and without the
shutdown sequence is the model's choice (log entry 16). -/
def Obligations.EndpointsStayBoundUntilShutdown : Prop :=
  ∀ (p : HostParams) (sys : System) (ready : List LoopEvent), sys.host.running = true → sys.host.cancelled = false →
    (sys.iterate p ready).host.sessionClosed = sys.host.sessionClosed ∧
    ((sys.iterate p ready).host.running = true →
      (sys.iterate p ready).host.channels.map (fun c => (c.state, c.bound)) =
        sys.host.channels.map (fun c => (c.state, c.bound))) ∧
    ((sys.iterate p ready).host.running = false → p.ioError = .fatal ∧ (sys.iterate p ready).host.channels = [] ∧
      ∃ (between : List LogEntry) (channel : Option Nat),
        (sys.iterate p ready).host.log = sys.host.log ++ between ++ [.transportIOError channel])

/-- Cancellation is observed at the top of an iteration (R150): a cancelled loop serves nothing of what the wait reported,
shuts down (R148, R149) and ends the process; a loop that does not run serves nothing. -/
def Obligations.CancellationIsObservedAtTheTop : Prop :=
  ∀ (p : HostParams) (sys : System) (ready : List LoopEvent),
    (sys.host.running = true → sys.host.cancelled = true →
      (sys.iterate p ready).host.serialOut = (sys.shutDown p).host.serialOut ∧
      (sys.iterate p ready).host.sessionClosed = true ∧ (sys.iterate p ready).host.running = false ∧
      (sys.iterate p ready).host.channels = [] ∧ (sys.iterate p ready).host.delivered = sys.host.delivered ∧
      (sys.iterate p ready).block.fb = sys.block.fb) ∧
    (sys.host.running = false → sys.iterate p ready = sys)

/-- The wait for an AT response (R152): the first response that contains "OK" or "ERROR" decides, if it comes within the
retry count, and otherwise the exchange times out. Which text wins where one response contains both is the parameter
`okFirst` (N11). -/
def Obligations.AtCommandResult : Prop :=
  ∀ (okFirst : Bool) (retries : Nat) (before after : List (Option (List Byte))),
    (∀ text, some text ∈ before → ¬ [0x4F, 0x4B] <:+: text ∧ ¬ [0x45, 0x52, 0x52, 0x4F, 0x52] <:+: text) →
    (before.length < retries → ∀ text : List Byte,
      ([0x4F, 0x4B] <:+: text → okFirst = true ∨ ¬ [0x45, 0x52, 0x52, 0x4F, 0x52] <:+: text →
        atCommand okFirst retries (before ++ some text :: after) = .success) ∧
      ([0x45, 0x52, 0x52, 0x4F, 0x52] <:+: text → okFirst = false ∨ ¬ [0x4F, 0x4B] <:+: text →
        atCommand okFirst retries (before ++ some text :: after) = .commandFailed)) ∧
    (retries ≤ before.length → atCommand okFirst retries (before ++ after) = .timedOut) ∧
    atCommand okFirst retries before = .timedOut

/-- The order of start-up (R194, R152): each command is written before its response is waited for; exchanges that all
succeed are followed by the SABM frames; one that fails ends start-up before them (R151), with its own command written
and nothing else changed. That the channel table is as it was after a failed exchange is the model's choice (log
entry 21). Nothing of the exchanges reaches the block. The writes do not fail (log entry 20). -/
def Obligations.BringUpWritesTheCommandsFirst : Prop :=
  ∀ (p : HostParams) (sys : System) (before : List AtExchange), (∀ a ∈ sys.host.writeAnswers, a = .written) →
    (∀ x ∈ before, atCommand p.atOkFirst p.atRetries x.responses = .success) →
    (∃ sys' : System, System.bringUp p before sys = (sys'.startUp p, .success) ∧ sys'.block = sys.block ∧
      sys'.host.serialOut = sys.host.serialOut ++ (before.map AtExchange.command).flatten ∧
      sys'.host.channels = sys.host.channels) ∧
    ∀ (x : AtExchange) (after : List AtExchange), atCommand p.atOkFirst p.atRetries x.responses ≠ .success →
      (System.bringUp p (before ++ x :: after) sys).2 = atCommand p.atOkFirst p.atRetries x.responses ∧
      (System.bringUp p (before ++ x :: after) sys).1.block = sys.block ∧
      (System.bringUp p (before ++ x :: after) sys).1.host.serialOut =
        sys.host.serialOut ++ (before.map AtExchange.command).flatten ++ x.command ∧
      (System.bringUp p (before ++ x :: after) sys).1.host.channels = sys.host.channels ∧
      (System.bringUp p (before ++ x :: after) sys).1.host.running = sys.host.running

/-- Outbound wrapping (R146): a read of at most 127 bytes, bounded by `EP_SCRATCH` and by 127 where the host bounds its
reads, becomes exactly one UIH frame with the host's CR and PF; a longer one is dropped with a log entry under the policy
`drop`, and under `split` its whole content is sent in order in frames of at most 127 bytes (D27; how it is cut is log
entry 15's). The channel is bound and in service, and the writes do not fail. -/
def Obligations.OutboundWrapsOneRead : Prop :=
  ∀ (p : HostParams) (sys : System) (id : Nat) (c : Channel) (available : List Byte), id ≤ 63 →
    sys.host.channels[id]? = some c → c.bound = true → c.failed = false → sys.host.workEnded = false →
    (∀ a ∈ sys.host.writeAnswers, a = .written) → ∃ (pieces wires : List (List Byte)) (log : List LogEntry),
      (sys.outbound p id available).host.serialOut = sys.host.serialOut ++ wires.flatten ∧
      (sys.outbound p id available).host.log = sys.host.log ++ log ∧
      (sys.outbound p id available).host.channels = sys.host.channels ∧
      (sys.outbound p id available).block.fb = sys.block.fb ∧
      List.Forall₂ (fun d w => d.length ≤ 127 ∧ ∃ a ctl : Byte, a.toNat = id * 4 + p.crOut.toNat * 2 + 1 ∧
        ctl.toNat = 0xEF + p.pfOut.toNat * 16 ∧ encodeFrame ⟨a, ctl, d⟩ = .ok w) pieces wires ∧
      (p.oversize = .boundReads → pieces = [available.take (min p.epScratch 127)] ∧ log = []) ∧
      (p.oversize ≠ .boundReads → (available.take p.epScratch).length ≤ 127 →
        pieces = [available.take p.epScratch] ∧ log = []) ∧
      (p.oversize = .drop → 127 < (available.take p.epScratch).length →
        pieces = [] ∧ log = [.oversizeDropped id (available.take p.epScratch).length]) ∧
      (p.oversize = .split → 127 < (available.take p.epScratch).length →
        pieces.flatten = available.take p.epScratch ∧ log = [])

/-- The inbound path (R140, R144, R145, R194): a serial read is ingested, or dropped with a log entry where it does not
fit (log entry 15), FB is drained, and the frames are routed in the order FB.DRAIN returns them. If no write fails, every
frame for a bound channel in service is delivered, every dropped one is logged, and nothing else of the host changes. If
the write after the first `k` fails, exactly the first `k` deliveries are made (R151; the answers to writes are log entry
20's). -/
def Obligations.SerialReadIsDrainedAndRouted : Prop :=
  ∀ (p : HostParams) (sys : System) (bytes : List Byte), sys.host.running = true → sys.host.cancelled = false →
    ∃ (t u : State) (fs : List Frame), exec (.fbIngest bytes) sys.block = .next t ∧ exec .fbDrain t = .next u ∧
      u.response = some ⟨.ok, .frames fs⟩ ∧ (sys.iterate p [.serialReadable bytes]).block.fb = u.fb ∧
      ((∀ a ∈ sys.host.writeAnswers, a = .written) →
        (sys.iterate p [.serialReadable bytes]).host = { sys.host with
          delivered := sys.host.delivered ++ sys.host.deliveries fs
          log := sys.host.log ++
            (if sys.block.fb.length + bytes.length ≤ sys.block.config.fbCap then [] else [.ingestOverflow]) ++
            sys.host.complaints fs
          workEnded := false
          writeAnswers := sys.host.writeAnswers.drop (sys.host.deliveries fs).length }) ∧
      ∀ (k : Nat) (later : List WriteAnswer),
        sys.host.writeAnswers = List.replicate k .written ++ .failed :: later →
        (sys.iterate p [.serialReadable bytes]).host.delivered =
          sys.host.delivered ++ (sys.host.deliveries fs).take k ∧
        ((sys.iterate p [.serialReadable bytes]).host.workEnded = true ↔ k < (sys.host.deliveries fs).length)
end

