-- ==== Sys2Proof/Laws/Bytes.lean ====
section
/-! SUPPORT. Byte sequences: the scan for the first FLAG, slices, and reads of a sequence in parts. -/

namespace Sys2Proof.Machine

@[simp] theorem firstFlag_nil : firstFlag [] = none := rfl

theorem firstFlag_flag_cons (rest : List Byte) : firstFlag (FLAG :: rest) = some 0 := by simp [firstFlag]

theorem firstFlag_other_cons {b : Byte} (h : b ≠ FLAG) (rest : List Byte) :
    firstFlag (b :: rest) = (firstFlag rest).map (· + 1) := by simp [firstFlag, h]

/-- There is no first FLAG exactly where there is no FLAG. -/
theorem firstFlag_eq_none_iff (s : List Byte) : firstFlag s = none ↔ FLAG ∉ s := by
  induction s with
  | nil => simp
  | cons b rest ih =>
    by_cases h : b = FLAG
    · simp [firstFlag, h]
    · simp [firstFlag, h, ih, Ne.symm h]

/-- Behind bytes without a FLAG, a FLAG is the first one. -/
theorem firstFlag_append_flag {g : List Byte} (h : FLAG ∉ g) (rest : List Byte) :
    firstFlag (g ++ FLAG :: rest) = some g.length := by
  induction g with
  | nil => simp [firstFlag]
  | cons b g ih =>
    have hb : b ≠ FLAG := fun e => h (by simp [e])
    have hg : FLAG ∉ g := fun e => h (by simp [e])
    simp [firstFlag, hb, ih hg]

/-- A sequence with a FLAG splits at its first one. -/
theorem exists_split_of_firstFlag {s : List Byte} {p : Nat} (h : firstFlag s = some p) :
    ∃ g rest, s = g ++ FLAG :: rest ∧ FLAG ∉ g ∧ g.length = p := by
  induction s generalizing p with
  | nil => simp at h
  | cons b s ih =>
    by_cases hb : b = FLAG
    · refine ⟨[], s, by simp [hb], by simp, ?_⟩
      simpa [firstFlag, hb] using h
    · rw [firstFlag_other_cons hb, Option.map_eq_some_iff] at h
      obtain ⟨q, hq, rfl⟩ := h
      obtain ⟨g, rest, rfl, hg, rfl⟩ := ih hq
      exact ⟨b :: g, rest, rfl, by simp [hg, Ne.symm hb], rfl⟩

/-- Every sequence has no FLAG or splits at its first one. -/
theorem split_at_flag (s : List Byte) : FLAG ∉ s ∨ ∃ g rest, s = g ++ FLAG :: rest ∧ FLAG ∉ g := by
  cases h : firstFlag s with
  | none => exact .inl ((firstFlag_eq_none_iff s).1 h)
  | some p =>
    obtain ⟨g, rest, hs, hg, -⟩ := exists_split_of_firstFlag h
    exact .inr ⟨g, rest, hs, hg⟩

@[simp] theorem byteAt_append_add (g s : List Byte) (i : Nat) : byteAt (g ++ s) (g.length + i) = byteAt s i := by
  simp [byteAt, List.getD_eq_getElem?_getD, List.getElem?_append_right]

@[simp] theorem byteAt_cons_zero (b : Byte) (s : List Byte) : byteAt (b :: s) 0 = b := rfl

@[simp] theorem byteAt_cons_succ (b : Byte) (s : List Byte) (i : Nat) : byteAt (b :: s) (i + 1) = byteAt s i := rfl

theorem slice_append_add (g s : List Byte) (i j : Nat) : slice (g ++ s) (g.length + i) (g.length + j) = slice s i j := by
  simp only [slice, List.drop_append, List.drop_eq_nil_of_le (Nat.le_add_right g.length i), List.nil_append,
    Nat.add_sub_cancel_left]
  congr 1
  omega

theorem slice_length (s : List Byte) (i n : Nat) (h : i + n ≤ s.length) : (slice s i (i + n)).length = n := by
  simp [slice]; omega

end Sys2Proof.Machine
end

