-- ==== Sys2Proof/Laws/State.lean ====
section
/-! SUPPORT. What each update of the state does to each field, and to the read of one byte. -/

namespace Sys2Proof.Machine

variable (s : State) (r : Result) (st : Status) (v : Memory)

@[simp] theorem State.answer_config : (s.answer r).config = s.config := rfl
@[simp] theorem State.answer_fb : (s.answer r).fb = s.fb := rfl
@[simp] theorem State.answer_pending : (s.answer r).pending = s.pending := rfl
@[simp] theorem State.answer_response : (s.answer r).response = some ⟨.ok, r⟩ := rfl

@[simp] theorem State.raise_config : (s.raise st).config = s.config := rfl
@[simp] theorem State.raise_fb : (s.raise st).fb = s.fb := rfl
@[simp] theorem State.raise_pending : (s.raise st).pending = s.pending := rfl
@[simp] theorem State.raise_response : (s.raise st).response = some ⟨st, .none⟩ := rfl

@[simp] theorem State.setFb_config : (s.setFb v).config = s.config := rfl
@[simp] theorem State.setFb_fb : (s.setFb v).fb = v := rfl
@[simp] theorem State.setFb_pending : (s.setFb v).pending = s.pending := rfl
@[simp] theorem State.setFb_response : (s.setFb v).response = s.response := rfl
@[simp] theorem State.setFb_self : s.setFb s.fb = s := rfl

@[simp] theorem State.resetBlock_config : s.resetBlock.config = s.config := rfl
@[simp] theorem State.resetBlock_fb : s.resetBlock.fb = [] := rfl
@[simp] theorem State.resetBlock_pending : s.resetBlock.pending = s.pending := rfl
@[simp] theorem State.resetBlock_response : s.resetBlock.response = none := rfl

@[simp] theorem State.reset_config : State.reset.config = Config.reference := rfl
@[simp] theorem State.reset_fb : State.reset.fb = [] := rfl
@[simp] theorem State.reset_pending : State.reset.pending = [] := rfl
@[simp] theorem State.reset_response : State.reset.response = none := rfl

@[simp] theorem State.withFetchWord_config (nbits w : Nat) : (s.withFetchWord nbits w).config = s.config := rfl
@[simp] theorem State.withFetchWord_fb (nbits w : Nat) : (s.withFetchWord nbits w).fb = s.fb := rfl
@[simp] theorem State.withFetchWord_response (nbits w : Nat) : (s.withFetchWord nbits w).response = s.response := rfl
@[simp] theorem State.withFetchWord_pending (nbits w : Nat) :
    (s.withFetchWord nbits w).pending = tableRequest nbits w :: s.pending := rfl

@[simp] theorem State.readByte_answer (i : Nat) : (s.answer r).readByte i = s.readByte i := rfl
@[simp] theorem State.readByte_raise (i : Nat) : (s.raise st).readByte i = s.readByte i := rfl
@[simp] theorem State.readByte_setFb (i : Nat) : (s.setFb v).readByte i = v[i]? := rfl

end Sys2Proof.Machine
end

