-- ==== Sys2Proof/Laws/Ops.lean ====
section
/-! SUPPORT. One lemma for each shared operation that says once everything it can do. -/

namespace Sys2Proof.Machine

/-- Every operation that ends by `conclude` gives a next state. -/
theorem conclude_eq (r : Except Status Result) (s : State) :
    (∃ v, r = .ok v ∧ conclude r s = .next (s.answer v)) ∨ (∃ st, r = .error st ∧ conclude r s = .next (s.raise st)) := by
  cases r with
  | ok v => exact .inl ⟨v, rfl, rfl⟩
  | error st => exact .inr ⟨st, rfl, rfl⟩

@[simp] theorem conclude_ok (v : Result) (s : State) : conclude (.ok v) s = .next (s.answer v) := rfl

@[simp] theorem conclude_error (st : Status) (s : State) : conclude (.error st) s = .next (s.raise st) := rfl

/-- What `MemRead` of the whole buffer gives. -/
@[simp] theorem memRead_all (s : State) : s.memRead 0 s.fb.length = some s.fb := by simp [State.memRead, slice]

theorem memRead_eq_some {s : State} {i n : Nat} {b : List Byte} (h : s.memRead i n = some b) :
    i + n ≤ s.fb.length ∧ b = slice s.fb i (i + n) := by
  unfold State.memRead at h
  split at h
  · exact ⟨‹_›, by simpa using h.symm⟩
  · cases h

/-- Everything `MemWrite` can do. -/
theorem memWrite_eq_some {s t : State} {bytes : List Byte} (h : s.memWrite bytes = some t) :
    s.fb.length + bytes.length ≤ s.config.fbCap ∧ t = { s with fb := s.fb ++ bytes } := by
  unfold State.memWrite at h
  split at h
  · exact ⟨‹_›, by simpa using h.symm⟩
  · cases h

/-- `MemWrite` keeps the form of the memory. -/
theorem memWrite_keeps_wf {s t : State} {bytes : List Byte} (h : s.memWrite bytes = some t) :
    Memory.wf t.config.fbCap t.fb = true := by
  obtain ⟨hle, rfl⟩ := memWrite_eq_some h
  simpa using hle

/-- A removal from the head keeps the form of the memory. -/
theorem wf_drop {cap : Nat} {m : Memory} (h : Memory.wf cap m = true) (k : Nat) : Memory.wf cap (m.drop k) = true := by
  simp at h ⊢
  omega

/-- Everything `takeRequest` can do. -/
theorem takeRequest_eq_some {s s' : State} {r : Request} (h : s.takeRequest = some (r, s')) :
    ∃ rest, s.pending = r :: rest ∧ s' = { s with pending := rest } := by
  cases hp : s.pending with
  | nil => simp [State.takeRequest, hp] at h
  | cons q rest =>
    simp only [State.takeRequest, hp, Option.some.injEq, Prod.mk.injEq] at h
    exact ⟨rest, by rw [h.1], h.2.symm⟩

theorem takeRequest_cons {s : State} {r : Request} {rest : List Request} (h : s.pending = r :: rest) :
    s.takeRequest = some (r, { s with pending := rest }) := by simp [State.takeRequest, h]

theorem takeRequest_nil {s : State} (h : s.pending = []) : s.takeRequest = none := by simp [State.takeRequest, h]

/-- The port answers with a status, or refuses bytes that are not one whole request. -/
theorem rejectRequest_cases (e : DecodeError) (s : State) :
    (∃ st, rejectRequest e s = .next (s.raise st)) ∨ rejectRequest e s = .refused (.malformedRequest e) := by
  cases e with
  | illegalOp => exact .inl ⟨_, rfl⟩
  | unsupportedFrameType c => exact .inl ⟨_, rfl⟩
  | emptyRequest => exact .inr rfl
  | selectOutOfRange => exact .inr rfl
  | operandMissing => exact .inr rfl
  | operandOutOfRange => exact .inr rfl
  | trailingBytes => exact .inr rfl

end Sys2Proof.Machine
end

