-- ==== Sys2Proof/Laws/Codec.lean ====
section
/-! SUPPORT. The length indicator, and FRAME.ENCODE and FRAME.DECODE as functions of the shape of their operand. -/

namespace Sys2Proof.Machine

/-- LEN.PACK by cases. -/
theorem packLength_of_le {n : Nat} (h : n ≤ MAX_LEN) :
    packLength n = .ok (BitVec.ofNat 8 ((n <<< 1) ||| 1)) := by simp [packLength, Nat.not_lt.2 h]

theorem packLength_of_gt {n : Nat} (h : MAX_LEN < n) : packLength n = .error (.lengthOverflow n) := by
  simp [packLength, h]

/-- A packed length unpacks to itself. -/
theorem unpackLength_packLength {n : Nat} {li : Byte} (h : packLength n = .ok li) :
    ∃ k : BitVec 7, unpackLength li = .ok k ∧ k.toNat = n := by
  by_cases hn : n ≤ MAX_LEN
  · rw [packLength_of_le hn] at h
    have hall : ∀ m : Fin 128, ∃ k : BitVec 7,
        unpackLength (BitVec.ofNat 8 ((m.1 <<< 1) ||| 1)) = .ok k ∧ k.toNat = m.1 :=
      fun m => ⟨BitVec.ofNat 7 m.1, by revert m; decide, by revert m; decide⟩
    obtain ⟨k, hk, hkn⟩ := hall ⟨n, by unfold MAX_LEN at hn; omega⟩
    cases h
    exact ⟨k, hk, hkn⟩
  · rw [packLength_of_gt (Nat.lt_of_not_le hn)] at h
    cases h

/-- An unpacked length indicator packs to itself. -/
theorem packLength_unpackLength {li : Byte} {k : BitVec 7} (h : unpackLength li = .ok k) :
    packLength k.toNat = .ok li ∧ k.toNat ≤ MAX_LEN := by
  have hle : k.toNat ≤ MAX_LEN := by unfold MAX_LEN; omega
  refine ⟨?_, hle⟩
  have hall : ∀ b : Byte, (match unpackLength b with
      | .ok n => decide (packLength n.toNat = .ok b)
      | .error _ => true) = true := by decide
  simpa [h] using hall li

/-- FRAME.DECODE without a FLAG. -/
theorem decodeFrame_no_flag {input : List Byte} (h : FLAG ∉ input) : decodeFrame input = .error .noFlag := by
  simp [decodeFrame, (firstFlag_eq_none_iff input).2 h]

/-- FRAME.DECODE of an input that ends inside the header. -/
theorem decodeFrame_short_header {g rest : List Byte} (hg : FLAG ∉ g) (h : rest.length < 3) :
    decodeFrame (g ++ FLAG :: rest) = .error .truncated := by
  simp only [decodeFrame, firstFlag_append_flag hg]
  rw [if_pos (by simp; omega)]

/-- FRAME.DECODE of a two-octet length form. -/
theorem decodeFrame_unsupported {g tail : List Byte} {a c li : Byte} {st : Status} (hg : FLAG ∉ g)
    (h : unpackLength li = .error st) : decodeFrame (g ++ FLAG :: a :: c :: li :: tail) = .error st := by
  simp only [decodeFrame, firstFlag_append_flag hg]
  rw [if_neg (by simp)]
  simp [h]

/-- FRAME.DECODE of an input that ends inside the tail. -/
theorem decodeFrame_short_tail {g tail : List Byte} {a c li : Byte} {k : BitVec 7} (hg : FLAG ∉ g)
    (h : unpackLength li = .ok k) (ht : tail.length < k.toNat + 2) :
    decodeFrame (g ++ FLAG :: a :: c :: li :: tail) = .error .truncated := by
  simp only [decodeFrame, firstFlag_append_flag hg]
  rw [if_neg (by simp)]
  simp [h]
  omega

/-- FRAME.DECODE of an input with a whole span behind its first FLAG: the closing byte and the checksum decide. -/
theorem decodeFrame_whole {g content tail : List Byte} {a c li received closing : Byte} {k : BitVec 7} (hg : FLAG ∉ g)
    (h : unpackLength li = .ok k) (hk : k.toNat = content.length) :
    decodeFrame (g ++ FLAG :: a :: c :: li :: (content ++ received :: closing :: tail)) =
      if closing ≠ FLAG then .error .noClosingFlag
      else if received ≠ fcsCompute a c li content then .error .fcsMismatch
      else .ok ⟨⟨a, c, content⟩, g.length + content.length + 6, g.length⟩ := by
  simp only [decodeFrame, firstFlag_append_flag hg]
  rw [if_neg (by simp)]
  have hb : ∀ j, byteAt (FLAG :: a :: c :: li :: (content ++ received :: closing :: tail)) (4 + content.length + j) =
      byteAt (received :: closing :: tail) j := by
    intro j
    rw [show 4 + content.length + j = (content.length + j) + 1 + 1 + 1 + 1 by omega]
    simp
  have h4 : byteAt (FLAG :: a :: c :: li :: (content ++ received :: closing :: tail)) (4 + content.length) = received :=
    hb 0
  have h5 : byteAt (FLAG :: a :: c :: li :: (content ++ received :: closing :: tail)) (4 + content.length + 1) = closing :=
    hb 1
  have hs : slice (FLAG :: a :: c :: li :: (content ++ received :: closing :: tail)) 4 (4 + content.length) = content := by
    simp [slice]
  have e3 : byteAt (FLAG :: a :: c :: li :: (content ++ received :: closing :: tail)) 3 = li := rfl
  have e2 : byteAt (FLAG :: a :: c :: li :: (content ++ received :: closing :: tail)) 2 = c := rfl
  have e1 : byteAt (FLAG :: a :: c :: li :: (content ++ received :: closing :: tail)) 1 = a := rfl
  rw [byteAt_append_add, e3, h]
  simp only [hk]
  rw [if_neg (by simp; omega),
    show g.length + 5 + content.length = g.length + (4 + content.length + 1) by omega,
    show g.length + 4 + content.length = g.length + (4 + content.length) by omega,
    byteAt_append_add, byteAt_append_add, byteAt_append_add, byteAt_append_add, slice_append_add, e1, e2, h4, h5, hs]

/-- The wire form of FRAME.ENCODE (R35). -/
theorem encodeFrame_eq_ok {f : Frame} {w : List Byte} (h : encodeFrame f = .ok w) :
    ∃ li, packLength f.content.length = .ok li ∧
      w = FLAG :: f.address :: f.control :: li ::
        (f.content ++ [fcsCompute f.address f.control li f.content, FLAG]) := by
  unfold encodeFrame at h
  split at h
  · rename_i li hli
    cases h
    exact ⟨li, hli, by simp⟩
  · cases h

theorem encodeFrame_of_le {f : Frame} (h : f.content.length ≤ MAX_LEN) : ∃ w, encodeFrame f = .ok w := by
  simp [encodeFrame, packLength_of_le h]

theorem encodeFrame_of_gt {f : Frame} (h : MAX_LEN < f.content.length) :
    encodeFrame f = .error (.lengthOverflow f.content.length) := by simp [encodeFrame, packLength_of_gt h]

theorem encodeFrame_length {f : Frame} {w : List Byte} (h : encodeFrame f = .ok w) : w.length = f.content.length + 6 := by
  obtain ⟨li, -, rfl⟩ := encodeFrame_eq_ok h
  simp

/-- A wire form behind bytes without a FLAG decodes to its frame, whatever follows. -/
theorem decodeFrame_encodeFrame {f : Frame} {w g : List Byte} (h : encodeFrame f = .ok w) (hg : FLAG ∉ g) (t : List Byte) :
    decodeFrame (g ++ w ++ t) = .ok ⟨f, g.length + w.length, g.length⟩ := by
  have hlen := encodeFrame_length h
  obtain ⟨li, hli, rfl⟩ := encodeFrame_eq_ok h
  obtain ⟨k, hk, hkn⟩ := unpackLength_packLength hli
  have := decodeFrame_whole (tail := t) (a := f.address) (c := f.control)
    (received := fcsCompute f.address f.control li f.content) (closing := FLAG) hg hk hkn
  rw [hlen, ← Nat.add_assoc]
  simpa using this

/-- Everything a successful FRAME.DECODE can be: bytes without a FLAG, the wire form of the frame, and the rest. -/
theorem decodeFrame_eq_ok {input : List Byte} {d : Decoded} (h : decodeFrame input = .ok d) :
    ∃ g w t, input = g ++ w ++ t ∧ FLAG ∉ g ∧ encodeFrame d.frame = .ok w ∧
      d.skipped = g.length ∧ d.consumed = g.length + w.length := by
  rcases split_at_flag input with hn | ⟨g, rest, rfl, hg⟩
  · rw [decodeFrame_no_flag hn] at h; cases h
  rcases rest with _ | ⟨a, _ | ⟨c, _ | ⟨li, tail⟩⟩⟩
  · rw [decodeFrame_short_header hg (by simp)] at h; cases h
  · rw [decodeFrame_short_header hg (by simp)] at h; cases h
  · rw [decodeFrame_short_header hg (by simp)] at h; cases h
  cases hu : unpackLength li with
  | error st => rw [decodeFrame_unsupported hg hu] at h; cases h
  | ok k =>
    by_cases ht : tail.length < k.toNat + 2
    · rw [decodeFrame_short_tail hg hu ht] at h; cases h
    obtain ⟨content, tail', rfl, hc⟩ : ∃ content tail', tail = content ++ tail' ∧ content.length = k.toNat :=
      ⟨tail.take k.toNat, tail.drop k.toNat, (List.take_append_drop _ _).symm, by simp; omega⟩
    rcases tail' with _ | ⟨received, _ | ⟨closing, tail''⟩⟩
    · simp at ht; omega
    · simp at ht; omega
    rw [decodeFrame_whole hg hu hc.symm] at h
    split at h
    · cases h
    split at h
    · cases h
    rename_i hcl hfc
    cases h
    obtain rfl : closing = FLAG := not_not.1 hcl
    obtain rfl : received = _ := not_not.1 hfc
    have hp := (packLength_unpackLength hu).1
    rw [← hc] at hp
    refine ⟨g, FLAG :: a :: c :: li :: (content ++ [fcsCompute a c li content, FLAG]), tail'', by simp, hg, ?_, rfl, ?_⟩
    · simp [encodeFrame, hp]
    · simp; omega

/-- FRAME.DECODE fails with one of its five statuses. -/
theorem decodeFrame_eq_error {input : List Byte} {st : Status} (h : decodeFrame input = .error st) :
    st = .noFlag ∨ st = .truncated ∨ (∃ li, st = .unsupportedLength li) ∨ st = .noClosingFlag ∨ st = .fcsMismatch := by
  unfold decodeFrame at h
  split at h
  · cases h; simp
  split at h
  · cases h; simp
  split at h
  · rename_i hu
    cases h
    unfold unpackLength at hu
    split at hu
    · cases hu; simp
    · cases hu
  split at h
  · cases h; simp
  split at h
  · cases h; simp
  split at h
  · cases h; simp
  · cases h

end Sys2Proof.Machine
end

