-- ==== Sys2Proof/Laws/Buffer.lean ====
section
/-! SUPPORT. Extraction and the drain loop as functions of the buffer contents. -/

namespace Sys2Proof.Machine

theorem resync_no_flag {fb : Memory} (h : FLAG ∉ fb) : resync fb = [] := by
  simp [resync, (firstFlag_eq_none_iff fb).2 h]

theorem resync_split {g : List Byte} (hg : FLAG ∉ g) (rest : List Byte) : resync (g ++ FLAG :: rest) = rest := by
  simp [resync, firstFlag_append_flag hg]

theorem extractOne_of_ok {fb : Memory} {d : Decoded} (h : decodeFrame fb = .ok d) :
    extractOne fb = (some d.frame, fb.drop d.consumed) := by simp [extractOne, h]

theorem extractOne_of_error {fb : Memory} {st : Status} (h : decodeFrame fb = .error st) :
    extractOne fb = (none, resync fb) := by simp [extractOne, h]

theorem extractOne_no_flag {fb : Memory} (h : FLAG ∉ fb) : extractOne fb = (none, []) := by
  rw [extractOne_of_error (decodeFrame_no_flag h), resync_no_flag h]

/-- A wire form behind bytes without a FLAG is extracted and what follows it stays. -/
theorem extractOne_encodeFrame {f : Frame} {w g : List Byte} (h : encodeFrame f = .ok w) (hg : FLAG ∉ g) (t : List Byte) :
    extractOne (g ++ w ++ t) = (some f, t) := by
  rw [extractOne_of_ok (decodeFrame_encodeFrame h hg t)]
  simp only [← List.length_append, List.drop_left]

/-- Everything one extraction can do: take a wire form and what stands before it, discard through the first FLAG, or
clear a buffer without one. -/
theorem extractOne_cases (fb : Memory) :
    (∃ f g w, encodeFrame f = .ok w ∧ FLAG ∉ g ∧ fb = g ++ w ++ (extractOne fb).2 ∧ (extractOne fb).1 = some f) ∨
    (∃ g, FLAG ∉ g ∧ fb = g ++ FLAG :: (extractOne fb).2 ∧ (extractOne fb).1 = none) ∨
    (FLAG ∉ fb ∧ extractOne fb = (none, [])) := by
  cases h : decodeFrame fb with
  | ok d =>
    obtain ⟨g, w, t, rfl, hg, hw, -, -⟩ := decodeFrame_eq_ok h
    rw [extractOne_encodeFrame hw hg t]
    exact .inl ⟨_, g, w, hw, hg, rfl, rfl⟩
  | error st =>
    rcases split_at_flag fb with hn | ⟨g, rest, rfl, hg⟩
    · exact .inr (.inr ⟨hn, extractOne_no_flag hn⟩)
    · rw [extractOne_of_error h, resync_split hg]
      exact .inr (.inl ⟨g, hg, rfl, rfl⟩)

/-- Every wire form ends in a FLAG. -/
theorem encodeFrame_ends_in_flag {f : Frame} {w : List Byte} (h : encodeFrame f = .ok w) : ∃ b, w = b ++ [FLAG] := by
  obtain ⟨li, -, rfl⟩ := encodeFrame_eq_ok h
  exact ⟨FLAG :: f.address :: f.control :: li :: (f.content ++ [fcsCompute f.address f.control li f.content]), by simp⟩

/-- Where the buffer has a FLAG, an extraction removes bytes up to and including some FLAG. -/
theorem extractOne_removes_through_flag {fb : Memory} (h : FLAG ∈ fb) : ∃ u, fb = u ++ FLAG :: (extractOne fb).2 := by
  rcases extractOne_cases fb with ⟨f, g, w, hw, -, hfb, -⟩ | ⟨g, -, hfb, -⟩ | ⟨hn, -⟩
  · obtain ⟨b, rfl⟩ := encodeFrame_ends_in_flag hw
    exact ⟨g ++ b, by simpa using hfb⟩
  · exact ⟨g, hfb⟩
  · exact absurd h hn

theorem extractOne_shorter {fb : Memory} (h : FLAG ∈ fb) : (extractOne fb).2.length < fb.length := by
  obtain ⟨u, hu⟩ := extractOne_removes_through_flag h
  have := congrArg List.length hu
  simp at this
  omega

theorem drainLoop_no_flag {fb : Memory} (h : FLAG ∉ fb) (n : Nat) : drainLoop n fb = ([], fb) := by
  cases n with
  | zero => rfl
  | succ n => simp [drainLoop, (firstFlag_eq_none_iff fb).2 h]

theorem drainLoop_flag {fb : Memory} (h : FLAG ∈ fb) (n : Nat) :
    drainLoop (n + 1) fb =
      ((extractOne fb).1.toList ++ (drainLoop n (extractOne fb).2).1, (drainLoop n (extractOne fb).2).2) := by
  have h0 : 0 < fb.length := List.length_pos_of_mem h
  have h1 : firstFlag fb ≠ none := fun e => (firstFlag_eq_none_iff fb).1 e h
  simp [drainLoop, h0, h1]

/-- As many turns as the buffer has bytes are enough: more change nothing. -/
theorem drainLoop_enough : ∀ (n : Nat) (fb : Memory), fb.length ≤ n → drainLoop n fb = drainAll fb := by
  intro n
  induction n using Nat.strongRecOn with
  | _ n ih =>
    intro fb hn
    by_cases h : FLAG ∈ fb
    · have hs := extractOne_shorter h
      obtain ⟨m, rfl⟩ : ∃ m, n = m + 1 := ⟨n - 1, by omega⟩
      obtain ⟨l, hl⟩ : ∃ l, fb.length = l + 1 := ⟨fb.length - 1, by omega⟩
      unfold drainAll
      rw [hl, drainLoop_flag h, drainLoop_flag h]
      by_cases hml : m = l
      · rw [hml]
      · rw [ih m (by omega) _ (by omega), ih l (by omega) _ (by omega)]
    · rw [drainLoop_no_flag h, drainAll, drainLoop_no_flag h]

theorem drainAll_no_flag {fb : Memory} (h : FLAG ∉ fb) : drainAll fb = ([], fb) := drainLoop_no_flag h _

/-- The drain loop unrolled once. -/
theorem drainAll_flag {fb : Memory} (h : FLAG ∈ fb) :
    drainAll fb = ((extractOne fb).1.toList ++ (drainAll (extractOne fb).2).1, (drainAll (extractOne fb).2).2) := by
  have hs := extractOne_shorter h
  obtain ⟨l, hl⟩ : ∃ l, fb.length = l + 1 := ⟨fb.length - 1, by omega⟩
  rw [drainAll, hl, drainLoop_flag h, drainLoop_enough l _ (by omega)]

/-- Induction along the drain loop: a property of the buffer that holds without a FLAG, and holds where it holds after
one extraction, holds of every buffer. -/
theorem drain_induction {P : Memory → Prop} (hn : ∀ fb, FLAG ∉ fb → P fb)
    (hs : ∀ fb, FLAG ∈ fb → P (extractOne fb).2 → P fb) (fb : Memory) : P fb := by
  induction hl : fb.length using Nat.strongRecOn generalizing fb with
  | _ n ih =>
    by_cases h : FLAG ∈ fb
    · exact hs fb h (ih _ (hl ▸ extractOne_shorter h) _ rfl)
    · exact hn fb h

/-- FB.EXTRACT on any state. -/
theorem execFbExtract_eq (s : State) :
    execFbExtract s =
      match (extractOne s.fb).1 with
      | some f => .next ((s.setFb (extractOne s.fb).2).answer (.frame f))
      | none => .next ((s.setFb (extractOne s.fb).2).raise .noFrame) := by
  unfold execFbExtract
  rw [memRead_all]
  cases h : (extractOne s.fb).1 <;> simp [h]

/-- FB.DRAIN on any state. -/
theorem execFbDrain_eq (s : State) :
    execFbDrain s = .next ((s.setFb (drainAll s.fb).2).answer (.frames (drainAll s.fb).1)) := by
  unfold execFbDrain
  rw [memRead_all]
  simp

/-- FB.INGEST on any state. -/
theorem execFbIngest_eq (bytes : List Byte) (s : State) :
    execFbIngest bytes s =
      if s.fb.length + bytes.length > s.config.fbCap then .next (s.raise (.overflow s.fb.length bytes.length))
      else .next ((s.setFb (s.fb ++ bytes)).answer .none) := by
  unfold execFbIngest
  split
  · rfl
  · rename_i h
    simp [State.memWrite, Nat.le_of_not_lt h, State.setFb]

end Sys2Proof.Machine
end

