-- ==== Sys2Proof/Laws/Decode.lean ====
section
/-! SUPPORT. Reading an operand back from its bytes, and what a reader that succeeds has read. -/

namespace Sys2Proof

@[simp] theorem takeByte_cons (b : Byte) (rest : List Byte) : takeByte (b :: rest) = .ok (b, rest) := rfl

@[simp] theorem takeBit_bitByte (v : BitVec 1) (rest : List Byte) : takeBit (bitByte v :: rest) = .ok (v, rest) := by
  have hall : ∀ w : BitVec 1, (bitByte w).toNat ≤ 1 ∧ (bitByte w).setWidth 1 = w := by decide
  simp [takeBit, (hall v).1, (hall v).2]

@[simp] theorem takeDlci_dlciByte (d : BitVec 6) (rest : List Byte) :
    takeDlci (dlciByte d :: rest) = .ok (d, rest) := by
  have hall : ∀ e : BitVec 6, (dlciByte e).toNat ≤ DLCI_MAX ∧ (dlciByte e).setWidth 6 = e := by decide
  simp [takeDlci, (hall d).1, (hall d).2]

@[simp] theorem takeFrameType_typeByte (t : FrameType) (rest : List Byte) :
    takeFrameType (typeByte t :: rest) = .ok (t, rest) := by cases t <;> rfl

@[simp] theorem takeNat_natBytes (n : Nat) (rest : List Byte) : takeNat (natBytes n ++ rest) = .ok (n, rest) := by
  have hstep : ∀ q r : Nat, r < 255 →
      takeNat (List.replicate q 0xFF#8 ++ BitVec.ofNat 8 r :: rest) = .ok (r + 255 * q, rest) := by
    intro q r hr
    induction q with
    | zero =>
      have hne : BitVec.ofNat 8 r ≠ 0xFF#8 := fun e => by
        have := congrArg BitVec.toNat e
        simp at this
        omega
      simp [takeNat, hne]
      omega
    | succ q ih =>
      simp [List.replicate_succ, takeNat, ih]
      omega
  have := hstep (n / 255) (n % 255) (Nat.mod_lt _ (by decide))
  simpa [natBytes, Nat.mod_add_div] using this

@[simp] theorem takeBytes_seqBytes (s rest : List Byte) : takeBytes (seqBytes s ++ rest) = .ok (s, rest) := by
  simp [takeBytes, seqBytes]

theorem takeByte_eq_ok {ops rest : List Byte} {b : Byte} (h : takeByte ops = .ok (b, rest)) : ops = b :: rest := by
  cases ops with
  | nil => cases h
  | cons c ops => cases h; rfl

theorem takeBit_eq_ok {ops rest : List Byte} {v : BitVec 1} (h : takeBit ops = .ok (v, rest)) :
    ops = bitByte v :: rest := by
  cases ops with
  | nil => cases h
  | cons c ops =>
    simp only [takeBit] at h
    split at h
    · rename_i hc
      cases h
      have hall : ∀ b : Byte, b.toNat ≤ 1 → bitByte (b.setWidth 1) = b := by decide
      rw [hall c hc]
    · cases h

theorem takeDlci_eq_ok {ops rest : List Byte} {d : BitVec 6} (h : takeDlci ops = .ok (d, rest)) :
    ops = dlciByte d :: rest := by
  cases ops with
  | nil => cases h
  | cons c ops =>
    simp only [takeDlci] at h
    split at h
    · rename_i hc
      cases h
      have hall : ∀ b : Byte, b.toNat ≤ DLCI_MAX → dlciByte (b.setWidth 6) = b := by decide
      rw [hall c hc]
    · cases h

theorem takeFrameType_eq_ok {ops rest : List Byte} {t : FrameType} (h : takeFrameType ops = .ok (t, rest)) :
    ops = typeByte t :: rest := by
  cases ops with
  | nil => cases h
  | cons c ops =>
    simp only [takeFrameType] at h
    have hc : c = BitVec.ofNat 8 c.toNat := by simp
    split at h <;> cases h <;> (rename_i hn; rw [hn] at hc; rw [hc]; rfl)

theorem takeNat_eq_ok {ops rest : List Byte} {n : Nat} (h : takeNat ops = .ok (n, rest)) : ops = natBytes n ++ rest := by
  induction ops generalizing n with
  | nil => cases h
  | cons c ops ih =>
    unfold takeNat at h
    split at h
    · rename_i hc
      split at h
      · rename_i m rest' hm
        cases h
        rw [ih hm, hc]
        simp [natBytes, List.replicate_succ]
      · cases h
    · rename_i hc
      cases h
      have hlt : c.toNat < 255 := by
        have := c.isLt
        have hne : c.toNat ≠ 255 := fun e => hc (BitVec.eq_of_toNat_eq (by simpa using e))
        omega
      simp [natBytes, Nat.div_eq_of_lt hlt, Nat.mod_eq_of_lt hlt]

theorem takeBytes_eq_ok {ops s rest : List Byte} (h : takeBytes ops = .ok (s, rest)) : ops = seqBytes s ++ rest := by
  unfold takeBytes at h
  split at h
  · rename_i n r hn
    split at h
    · rename_i hle
      cases h
      rw [takeNat_eq_ok hn, seqBytes, List.length_take, Nat.min_eq_left hle, List.append_assoc, List.take_append_drop]
    · cases h
  · cases h

theorem takeFrame_seqBytes (f : Frame) (rest : List Byte) :
    takeFrame (f.address :: f.control :: (seqBytes f.content ++ rest)) = .ok (f, rest) := by
  simp [takeFrame, bind, Except.bind]

theorem takeFrame_eq_ok {ops rest : List Byte} {f : Frame} (h : takeFrame ops = .ok (f, rest)) :
    ops = f.address :: f.control :: (seqBytes f.content ++ rest) := by
  unfold takeFrame at h
  match ops, h with
  | [], h => cases h
  | [_], h => cases h
  | a :: c :: ops, h =>
    simp only [takeByte_cons, bind, Except.bind] at h
    split at h
    · cases h
    · rename_i p hp
      cases h
      rw [takeBytes_eq_ok hp]

/-- A control byte's own type and PF bit give it back (R40, R41). -/
theorem packControl_of_frameTypeOf {c : Byte} {t : FrameType} (h : frameTypeOf c = some t) :
    packControl t (pfBit c) = c := by
  have hall : ∀ b : Byte, (match frameTypeOf b with
      | some u => decide (packControl u (pfBit b) = b)
      | none => true) = true := by decide
  simpa [h] using hall c

@[simp] theorem frameTypeOf_packControl (t : FrameType) (pf : BitVec 1) : frameTypeOf (packControl t pf) = some t := by
  revert pf; cases t <;> decide

@[simp] theorem pfBit_packControl (t : FrameType) (pf : BitVec 1) : pfBit (packControl t pf) = pf := by
  revert pf; cases t <;> decide

end Sys2Proof
end

