-- ==== Sys2Proof/Laws/Fcs.lean ====
section
/-! SUPPORT. The checksum: the CRC of a sequence in parts, and what its inner steps do to a byte. -/

namespace Sys2Proof.Machine

@[simp] theorem crcFrom_nil (x : Byte) : crcFrom x [] = x := rfl

@[simp] theorem crcFrom_cons (x b : Byte) (rest : List Byte) : crcFrom x (b :: rest) = crcFrom (crcShift8 (x ^^^ b)) rest :=
  rfl

theorem crcFrom_append (x : Byte) (u v : List Byte) : crcFrom x (u ++ v) = crcFrom (crcFrom x u) v := by
  induction u generalizing x with
  | nil => rfl
  | cons b u ih => simp [ih]

/-- An inner step can be undone, so two bytes with the same outcome are the same. -/
theorem crcShift_inj {x y : Byte} (h : crcShift x = crcShift y) : x = y := by
  let back (c : Byte) : Byte := if c.getLsbD 7 then ((c ^^^ 0xE0#8) <<< 1) ||| 1#8 else c <<< 1
  have hall : ∀ c : Byte, back (crcShift c) = c := by decide
  rw [← hall x, ← hall y, h]

theorem crcShift8_inj {x y : Byte} (h : crcShift8 x = crcShift8 y) : x = y := by
  unfold crcShift8 at h
  iterate 8 replace h := crcShift_inj h
  exact h

theorem crcFrom_inj {x y : Byte} (v : List Byte) (h : crcFrom x v = crcFrom y v) : x = y := by
  induction v generalizing x y with
  | nil => exact h
  | cons b v ih => exact (BitVec.xor_left_inj b).1 (crcShift8_inj (ih h))

/-- The spec's table (R94) lists the eight inner steps of every byte. -/
theorem crcTable_getD (x : Byte) : crcTable.getD x.toNat 0 = crcShift8 x := by
  have hall : ∀ b : Byte, crcTable.getD b.toNat 0 = crcShift8 b := by decide
  exact hall x

theorem coverageOf_ui {control : Byte} (h : control &&& 0xEF = 0x03) : coverageOf control = .headerAndContent := by
  unfold coverageOf typeCode
  exact if_pos h

theorem coverageOf_other {control : Byte} (h : control &&& 0xEF ≠ 0x03) : coverageOf control = .header := by
  unfold coverageOf typeCode
  exact if_neg h

theorem coveredBytes_ui {control : Byte} (h : control &&& 0xEF = 0x03) (address li : Byte) (content : List Byte) :
    coveredBytes address control li content = [address, control, li] ++ content := by
  simp [coveredBytes, coverageOf_ui h]

theorem coveredBytes_other {control : Byte} (h : control &&& 0xEF ≠ 0x03) (address li : Byte) (content : List Byte) :
    coveredBytes address control li content = [address, control, li] := by
  simp [coveredBytes, coverageOf_other h]

end Sys2Proof.Machine
end

