-- ==== Sys2Proof/Laws/Exec.lean ====
section
/-! SUPPORT. `exec` in terms of the shared operations, one lemma per form, and the predicates of Safety.lean met by an
operation that ends by `conclude`. -/

namespace Sys2Proof.Machine

/-- The results of an instruction that does not touch the buffer: they depend on its operands alone (R28, R76). -/
def pureResult : Instr → Except Status Result
  | .addrPack dlci cr ea => .ok (.byte (packAddress dlci cr ea))
  | .addrGetEa a => .ok (.bit (addressEa a))
  | .addrGetCr a => .ok (.bit (addressCr a))
  | .addrGetDlci a => .ok (.dlci (addressDlci a))
  | .addrSetEa a v => .ok (.byte (withEa a v))
  | .addrSetCr a v => .ok (.byte (withCr a v))
  | .addrSetDlci a dlci => .ok (.byte (withDlci a dlci))
  | .ctrlPack t pf => .ok (.byte (packControl t pf))
  | .ctrlGetPf c => .ok (.bit (pfBit c))
  | .ctrlGetType c => (controlType c).map .frameType
  | .ctrlSetPf c v => .ok (.byte (withPf c v))
  | .ctrlSetType c t => .ok (.byte (withType c t))
  | .lenPack len => (packLength len).map .byte
  | .lenUnpack b => (unpackLength b).map .length
  | .fcsCompute address control li content => .ok (.byte (fcsCompute address control li content))
  | .fcsCheck address control li content received => .ok (.bit (fcsCheck address control li content received))
  | .frameEncode f => (encodeFrame f).map .bytes
  | .frameDecode input => (decodeFrame input).map .decoded
  | .fbIngest _ => .ok .none
  | .fbExtract => .ok .none
  | .fbDrain => .ok .none
  | .sabm pf => describeControl (packControl .sabm pf)
  | .ua pf => describeControl (packControl .ua pf)
  | .dm pf => describeControl (packControl .dm pf)
  | .disc pf => describeControl (packControl .disc pf)
  | .uih pf => describeControl (packControl .uih pf)
  | .ui pf => describeControl (packControl .ui pf)

/-- An instruction that does not touch the buffer concludes with its results. -/
theorem exec_pure {i : Instr} (h : i.TouchesBuffer = false) (s : State) : exec i s = conclude (pureResult i) s := by
  cases i with
  | fbIngest bytes => cases h
  | fbExtract => cases h
  | fbDrain => cases h
  | _ => rfl

theorem exec_fbIngest (bytes : List Byte) (s : State) : exec (.fbIngest bytes) s = execFbIngest bytes s := rfl

theorem exec_fbExtract (s : State) : exec .fbExtract s = execFbExtract s := rfl

theorem exec_fbDrain (s : State) : exec .fbDrain s = execFbDrain s := rfl

theorem onlyResponds_answer (s : State) (r : Result) : s.OnlyResponds (s.answer r) := ⟨rfl, rfl, rfl, fun _ => rfl⟩

theorem onlyResponds_raise (s : State) (st : Status) : s.OnlyResponds (s.raise st) := ⟨rfl, rfl, rfl, fun _ => rfl⟩

/-- A pure instruction returns exactly its results. -/
theorem returns_iff {i : Instr} (h : i.TouchesBuffer = false) (s : State) (r : Result) (hr : r ≠ .none) :
    Returns i s r ↔ pureResult i = .ok r := by
  unfold Returns
  rw [exec_pure h]
  cases hp : pureResult i with
  | ok v =>
    constructor
    · rintro ⟨t, ht, hresp, -⟩
      cases ht
      simpa using hresp
    · rintro hv
      cases hv
      exact ⟨_, rfl, rfl, onlyResponds_answer s r⟩
  | error st =>
    constructor
    · rintro ⟨t, ht, hresp, -⟩
      cases ht
      simp at hresp
      exact absurd hresp.2.symm hr
    · intro hv
      cases hv

/-- A pure instruction raises exactly its failure status. -/
theorem raises_iff {i : Instr} (h : i.TouchesBuffer = false) (s : State) (st : Status) (hst : st ≠ .ok) :
    Raises i s st ↔ pureResult i = .error st := by
  unfold Raises
  rw [exec_pure h]
  cases hp : pureResult i with
  | ok v =>
    constructor
    · rintro ⟨t, ht, hresp, -⟩
      cases ht
      simp at hresp
      exact absurd hresp.1.symm hst
    · intro hv
      cases hv
  | error st' =>
    constructor
    · rintro ⟨t, ht, hresp, -⟩
      cases ht
      simpa using hresp
    · rintro hv
      cases hv
      exact ⟨_, rfl, rfl, onlyResponds_raise s st⟩

end Sys2Proof.Machine
end

