-- ==== Sys2Proof/Laws/Multiplexer.lean ====
section
/-! SUPPORT. The host: one lemma per update of its state, what a use of the block, a write and the sending of a frame can
do, and work that a transport error ends. -/

namespace Sys2Proof.Machine

/-! ### Updates -/

@[simp] theorem logEntry_host (sys : System) (e : LogEntry) :
    (sys.logEntry e).host = { sys.host with log := sys.host.log ++ [e] } := rfl

@[simp] theorem logEntry_block (sys : System) (e : LogEntry) : (sys.logEntry e).block = sys.block := rfl

@[simp] theorem modifyChannel_host (sys : System) (id : Nat) (change : Channel → Channel) :
    (sys.modifyChannel id change).host = { sys.host with channels := sys.host.channels.modify id change } := rfl

@[simp] theorem modifyChannel_block (sys : System) (id : Nat) (change : Channel → Channel) :
    (sys.modifyChannel id change).block = sys.block := rfl

@[simp] theorem setChannelState_host (sys : System) (id : Nat) (st : ChannelState) :
    (sys.setChannelState id st).host =
      { sys.host with channels := sys.host.channels.modify id (fun c => { c with state := st }) } := rfl

@[simp] theorem setChannelState_block (sys : System) (id : Nat) (st : ChannelState) :
    (sys.setChannelState id st).block = sys.block := rfl

@[simp] theorem exitProcess_host (sys : System) :
    sys.exitProcess.host = { sys.host with channels := [], running := false } := rfl

@[simp] theorem exitProcess_block (sys : System) : sys.exitProcess.block = sys.block := rfl

@[simp] theorem noteFailure_host (sys : System) :
    sys.noteFailure.host = { sys.host with log := sys.host.log ++ [.transportIOError none] } := rfl

@[simp] theorem noteFailure_block (sys : System) : sys.noteFailure.block = sys.block := rfl

/-! ### Using the block -/

/-- An operation that does not touch the buffer leaves the host and the buffer alone and answers with its results. -/
theorem call_pure {i : Instr} (h : i.TouchesBuffer = false) (sys : System) :
    ∃ b : State, b.fb = sys.block.fb ∧
      sys.call i = ({ sys with block := b },
        some (match pureResult i with | .ok r => ⟨.ok, r⟩ | .error st => ⟨st, .none⟩)) := by
  unfold System.call
  rw [exec_pure h]
  cases pureResult i with
  | ok r => exact ⟨sys.block.answer r, rfl, rfl⟩
  | error st => exact ⟨sys.block.raise st, rfl, rfl⟩

/-- No operation changes the host. -/
@[simp] theorem call_host (sys : System) (i : Instr) : (sys.call i).1.host = sys.host := by
  unfold System.call
  split <;> rfl

/-! ### Writing -/

theorem writeSerial_written {sys : System} (h : sys.host.writeAnswers.head? ≠ some .failed) (bytes : List Byte)
    (onFailure : System → System) :
    sys.writeSerial bytes onFailure =
      { sys with host := { sys.host with
          serialOut := sys.host.serialOut ++ bytes, writeAnswers := sys.host.writeAnswers.tail } } := by
  unfold System.writeSerial System.takeAnswer
  rcases hw : sys.host.writeAnswers with _ | ⟨_ | _, rest⟩ <;> simp_all

theorem writeSerial_failed {sys : System} (h : sys.host.writeAnswers.head? = some .failed) (bytes : List Byte)
    (onFailure : System → System) :
    sys.writeSerial bytes onFailure =
      onFailure { sys with host := { sys.host with writeAnswers := sys.host.writeAnswers.tail } } := by
  unfold System.writeSerial System.takeAnswer
  rcases hw : sys.host.writeAnswers with _ | ⟨_ | _, rest⟩ <;> simp_all

theorem writeEndpoint_written {sys : System} (h : sys.host.writeAnswers.head? ≠ some .failed) (id : Nat)
    (content : List Byte) (onFailure : System → System) :
    sys.writeEndpoint id content onFailure =
      { sys with host := { sys.host with
          delivered := sys.host.delivered ++ [(id, content)], writeAnswers := sys.host.writeAnswers.tail } } := by
  unfold System.writeEndpoint System.takeAnswer
  rcases hw : sys.host.writeAnswers with _ | ⟨_ | _, rest⟩ <;> simp_all

theorem writeEndpoint_failed {sys : System} (h : sys.host.writeAnswers.head? = some .failed) (id : Nat)
    (content : List Byte) (onFailure : System → System) :
    sys.writeEndpoint id content onFailure =
      onFailure { sys with host := { sys.host with writeAnswers := sys.host.writeAnswers.tail } } := by
  unfold System.writeEndpoint System.takeAnswer
  rcases hw : sys.host.writeAnswers with _ | ⟨_ | _, rest⟩ <;> simp_all

/-- What sending a frame can do: a frame that fits is built, which leaves host and buffer alone, and its encoding is
written; one that does not fit is logged. -/
theorem sendFrame_cases (sys : System) (id : Nat) (cr : BitVec 1) (t : FrameType) (pf : BitVec 1) (content : List Byte)
    (onFailure : System → System) :
    ∃ b : State, b.fb = sys.block.fb ∧
      ((∃ w, encodeFrame ⟨packAddress (BitVec.ofNat 6 id) cr 1#1, packControl t pf, content⟩ = .ok w ∧
          sys.sendFrame id cr t pf content onFailure = System.writeSerial { sys with block := b } w onFailure) ∨
        ∃ st, encodeFrame ⟨packAddress (BitVec.ofNat 6 id) cr 1#1, packControl t pf, content⟩ = .error st ∧
          st ≠ .ok ∧
          sys.sendFrame id cr t pf content onFailure = System.logEntry { sys with block := b } (.encodeFailed id st)) := by
  obtain ⟨b1, hb1, hc1⟩ := call_pure (i := .addrPack (BitVec.ofNat 6 id) cr 1#1) rfl sys
  obtain ⟨b2, hb2, hc2⟩ := call_pure (i := .ctrlPack t pf) rfl { sys with block := b1 }
  obtain ⟨b3, hb3, hc3⟩ :=
    call_pure (i := .frameEncode ⟨packAddress (BitVec.ofNat 6 id) cr 1#1, packControl t pf, content⟩) rfl
      { sys with block := b2 }
  refine ⟨b3, hb3.trans (hb2.trans hb1), ?_⟩
  simp only [pureResult] at hc1 hc2 hc3
  cases he : encodeFrame ⟨packAddress (BitVec.ofNat 6 id) cr 1#1, packControl t pf, content⟩ with
  | ok w =>
    refine .inl ⟨w, rfl, ?_⟩
    simp only [System.sendFrame, System.buildFrame, hc1, hc2, hc3, he, Except.map]
  | error st =>
    have hst : st ≠ .ok := by
      rintro rfl
      unfold encodeFrame at he
      split at he
      · cases he
      · rename_i hp
        unfold packLength at hp
        split at hp <;> simp_all
    refine .inr ⟨st, rfl, hst, ?_⟩
    cases st <;> simp_all [System.sendFrame, System.buildFrame, Except.map]

/-! ### Routing and reading -/

/-- What routing can do: log a frame without a type, leave one of another type, deliver one that carries payload. Until
the delivery, host and buffer are as they were. -/
theorem route_cases (p : HostParams) (sys : System) (f : Frame) :
    ∃ b : State, b.fb = sys.block.fb ∧
      ((frameTypeOf f.control = none ∧
          sys.route p f = System.logEntry { sys with block := b } (.unsupportedFrameType f.control)) ∨
        (∃ t, frameTypeOf f.control = some t ∧ ¬(t = .uih ∨ t = .ui) ∧ sys.route p f = { sys with block := b }) ∨
        ∃ t, frameTypeOf f.control = some t ∧ (t = .uih ∨ t = .ui) ∧
          sys.route p f = System.deliver p { sys with block := b } (f.address.toNat / 4) f.content) := by
  obtain ⟨b1, hb1, hc1⟩ := call_pure (i := .ctrlGetType f.control) rfl sys
  obtain ⟨b2, hb2, hc2⟩ := call_pure (i := .addrGetDlci f.address) rfl { sys with block := b1 }
  have hd : ∀ a : Byte, (addressDlci a).toNat = a.toNat / 4 := by decide
  simp only [pureResult, controlType] at hc1 hc2
  cases ht : frameTypeOf f.control with
  | none => exact ⟨b1, hb1, .inl ⟨rfl, by simp [System.route, hc1, ht, Except.map]⟩⟩
  | some t =>
    by_cases hp : t = .uih ∨ t = .ui
    · exact ⟨b2, hb2.trans hb1, .inr (.inr ⟨t, rfl, hp, by simp [System.route, hc1, hc2, ht, Except.map, hp, hd]⟩)⟩
    · exact ⟨b1, hb1, .inr (.inl ⟨t, rfl, hp, by simp [System.route, hc1, ht, Except.map, hp]⟩)⟩

/-- What the ingest of a serial read does: FB.INGEST, and a log entry where the bytes do not fit. -/
theorem ingest_eq (sys : System) (bytes : List Byte) :
    ∃ t : State, exec (.fbIngest bytes) sys.block = .next t ∧ t.config = sys.block.config ∧
      sys.ingest bytes =
        { host := { sys.host with
            log := sys.host.log ++
              if sys.block.fb.length + bytes.length ≤ sys.block.config.fbCap then [] else [.ingestOverflow] }
          block := t } := by
  have he := (exec_fbIngest bytes sys.block).trans (execFbIngest_eq bytes sys.block)
  by_cases h : sys.block.fb.length + bytes.length ≤ sys.block.config.fbCap
  · rw [if_neg (by omega)] at he
    exact ⟨_, he, rfl, by simp [System.ingest, System.call, he, h]⟩
  · rw [if_pos (by omega)] at he
    exact ⟨_, he, rfl, by simp [System.ingest, System.call, he, h, System.logEntry]⟩

/-- What a serial read does: ingest, FB.DRAIN, and the frames routed in order. -/
theorem inbound_eq (p : HostParams) (sys : System) (bytes : List Byte) :
    ∃ (u : State) (fs : List Frame), exec .fbDrain (sys.ingest bytes).block = .next u ∧
      u.response = some ⟨.ok, .frames fs⟩ ∧
      sys.inbound p bytes = System.whileWorking (System.route p) fs { sys.ingest bytes with block := u } := by
  have he := (exec_fbDrain (sys.ingest bytes).block).trans (execFbDrain_eq (sys.ingest bytes).block)
  exact ⟨_, _, he, rfl, by simp [System.inbound, System.call, he]⟩

/-- What is delivered and what is logged depend on the channel table alone. -/
theorem deliveries_congr {h h' : HostState} (e : h.channels = h'.channels) (fs : List Frame) :
    h.deliveries fs = h'.deliveries fs := by simp only [HostState.deliveries, e]

theorem complaints_congr {h h' : HostState} (e : h.channels = h'.channels) (fs : List Frame) :
    h.complaints fs = h'.complaints fs := by simp only [HostState.complaints, e]

/-! ### Work that a transport error ends -/

@[simp] theorem whileWorking_nil {α : Type} (work : System → α → System) (sys : System) :
    System.whileWorking work [] sys = sys := rfl

theorem whileWorking_ended {α : Type} (work : System → α → System) (l : List α) {sys : System}
    (h : sys.host.workEnded = true) : System.whileWorking work l sys = sys := by
  cases l with
  | nil => rfl
  | cons a rest => simp [System.whileWorking, h]

theorem whileWorking_append {α : Type} (work : System → α → System) (l r : List α) (sys : System) :
    System.whileWorking work (l ++ r) sys = System.whileWorking work r (System.whileWorking work l sys) := by
  induction l generalizing sys with
  | nil => rfl
  | cons a l ih =>
    by_cases h : sys.host.workEnded = true
    · rw [whileWorking_ended _ _ h, whileWorking_ended _ _ h, whileWorking_ended _ _ h]
    · simp [System.whileWorking, h, ih]

/-- What every piece of work keeps, the whole work keeps. -/
theorem whileWorking_keeps {α : Type} {work : System → α → System} {P : System → Prop}
    (step : ∀ sys a, sys.host.workEnded = false → P sys → P (work sys a)) (l : List α) {sys : System} (h : P sys) :
    P (System.whileWorking work l sys) := by
  induction l generalizing sys with
  | nil => exact h
  | cons a l ih =>
    cases hw : sys.host.workEnded with
    | true => rwa [whileWorking_ended _ _ hw]
    | false => simpa [System.whileWorking, hw] using ih (step sys a hw h)

end Sys2Proof.Machine
end

