-- ==== Sys2Proof/Laws/PerInstr.lean ====
section
/-! SUPPORT. What holds of every instruction as syntax, one lemma per constructor. -/

namespace Sys2Proof.Laws

/-- The first byte of an instruction's encoding is the one its row of spec/opcode_table.json fixes: the select code of
R56, or the type code of R41 where PF is masked out. -/
def FirstByte.Statement : Instr → Prop
  | .addrPack dlci cr ea => (encode (.addrPack dlci cr ea)).head? = some 0x00#8
  | .addrGetEa a => (encode (.addrGetEa a)).head? = some 0x01#8
  | .addrGetCr a => (encode (.addrGetCr a)).head? = some 0x02#8
  | .addrGetDlci a => (encode (.addrGetDlci a)).head? = some 0x03#8
  | .addrSetEa a v => (encode (.addrSetEa a v)).head? = some 0x04#8
  | .addrSetCr a v => (encode (.addrSetCr a v)).head? = some 0x05#8
  | .addrSetDlci a dlci => (encode (.addrSetDlci a dlci)).head? = some 0x06#8
  | .ctrlPack t pf => (encode (.ctrlPack t pf)).head? = some 0x08#8
  | .ctrlGetPf c => (encode (.ctrlGetPf c)).head? = some 0x09#8
  | .ctrlGetType c => (encode (.ctrlGetType c)).head? = some 0x0A#8
  | .ctrlSetPf c v => (encode (.ctrlSetPf c v)).head? = some 0x0B#8
  | .ctrlSetType c t => (encode (.ctrlSetType c t)).head? = some 0x0C#8
  | .lenPack len => (encode (.lenPack len)).head? = some 0x0E#8
  | .lenUnpack b => (encode (.lenUnpack b)).head? = some 0x0F#8
  | .fcsCompute a c li content => (encode (.fcsCompute a c li content)).head? = some 0x10#8
  | .fcsCheck a c li content received => (encode (.fcsCheck a c li content received)).head? = some 0x11#8
  | .frameEncode f => (encode (.frameEncode f)).head? = some 0x14#8
  | .frameDecode input => (encode (.frameDecode input)).head? = some 0x15#8
  | .fbIngest bytes => (encode (.fbIngest bytes)).head? = some 0x18#8
  | .fbExtract => (encode .fbExtract).head? = some 0x19#8
  | .fbDrain => (encode .fbDrain).head? = some 0x1A#8
  | .sabm pf => (encode (.sabm pf)).map (· &&& 0xEF#8) = [0x2F#8]
  | .ua pf => (encode (.ua pf)).map (· &&& 0xEF#8) = [0x63#8]
  | .dm pf => (encode (.dm pf)).map (· &&& 0xEF#8) = [0x0F#8]
  | .disc pf => (encode (.disc pf)).map (· &&& 0xEF#8) = [0x43#8]
  | .uih pf => (encode (.uih pf)).map (· &&& 0xEF#8) = [0xEF#8]
  | .ui pf => (encode (.ui pf)).map (· &&& 0xEF#8) = [0x03#8]

theorem FirstByte.addrPack (dlci : BitVec 6) (cr ea : BitVec 1) : FirstByte.Statement (.addrPack dlci cr ea) := rfl
theorem FirstByte.addrGetEa (a : Byte) : FirstByte.Statement (.addrGetEa a) := rfl
theorem FirstByte.addrGetCr (a : Byte) : FirstByte.Statement (.addrGetCr a) := rfl
theorem FirstByte.addrGetDlci (a : Byte) : FirstByte.Statement (.addrGetDlci a) := rfl
theorem FirstByte.addrSetEa (a : Byte) (v : BitVec 1) : FirstByte.Statement (.addrSetEa a v) := rfl
theorem FirstByte.addrSetCr (a : Byte) (v : BitVec 1) : FirstByte.Statement (.addrSetCr a v) := rfl
theorem FirstByte.addrSetDlci (a : Byte) (dlci : BitVec 6) : FirstByte.Statement (.addrSetDlci a dlci) := rfl
theorem FirstByte.ctrlPack (t : FrameType) (pf : BitVec 1) : FirstByte.Statement (.ctrlPack t pf) := rfl
theorem FirstByte.ctrlGetPf (c : Byte) : FirstByte.Statement (.ctrlGetPf c) := rfl
theorem FirstByte.ctrlGetType (c : Byte) : FirstByte.Statement (.ctrlGetType c) := rfl
theorem FirstByte.ctrlSetPf (c : Byte) (v : BitVec 1) : FirstByte.Statement (.ctrlSetPf c v) := rfl
theorem FirstByte.ctrlSetType (c : Byte) (t : FrameType) : FirstByte.Statement (.ctrlSetType c t) := rfl
theorem FirstByte.lenPack (len : Nat) : FirstByte.Statement (.lenPack len) := rfl
theorem FirstByte.lenUnpack (b : Byte) : FirstByte.Statement (.lenUnpack b) := rfl
theorem FirstByte.fcsCompute (address control li : Byte) (content : List Byte) :
    FirstByte.Statement (.fcsCompute address control li content) := rfl
theorem FirstByte.fcsCheck (address control li : Byte) (content : List Byte) (received : Byte) :
    FirstByte.Statement (.fcsCheck address control li content received) := rfl
theorem FirstByte.frameEncode (f : Frame) : FirstByte.Statement (.frameEncode f) := rfl
theorem FirstByte.frameDecode (input : List Byte) : FirstByte.Statement (.frameDecode input) := rfl
theorem FirstByte.fbIngest (bytes : List Byte) : FirstByte.Statement (.fbIngest bytes) := rfl
theorem FirstByte.fbExtract : FirstByte.Statement .fbExtract := rfl
theorem FirstByte.fbDrain : FirstByte.Statement .fbDrain := rfl
theorem FirstByte.sabm (pf : BitVec 1) : FirstByte.Statement (.sabm pf) := by unfold FirstByte.Statement; revert pf; decide
theorem FirstByte.ua (pf : BitVec 1) : FirstByte.Statement (.ua pf) := by unfold FirstByte.Statement; revert pf; decide
theorem FirstByte.dm (pf : BitVec 1) : FirstByte.Statement (.dm pf) := by unfold FirstByte.Statement; revert pf; decide
theorem FirstByte.disc (pf : BitVec 1) : FirstByte.Statement (.disc pf) := by unfold FirstByte.Statement; revert pf; decide
theorem FirstByte.uih (pf : BitVec 1) : FirstByte.Statement (.uih pf) := by unfold FirstByte.Statement; revert pf; decide
theorem FirstByte.ui (pf : BitVec 1) : FirstByte.Statement (.ui pf) := by unfold FirstByte.Statement; revert pf; decide

end Sys2Proof.Laws
end

