-- ==== Sys2Proof/Laws/Step.lean ====
section
/-! SUPPORT. One step and a run of steps. -/

namespace Sys2Proof.Machine

theorem step_idle {s : State} (h : s.pending = []) : step s = .next s := by simp [step, takeRequest_nil h]

theorem step_reset {s : State} {rest : List Request} (h : s.pending = .reset :: rest) :
    step s = .next ({ s with pending := rest } : State).resetBlock := by simp [step, takeRequest_cons h]

theorem step_issue {s : State} {port : Port} {bytes : List Byte} {rest : List Request}
    (h : s.pending = .issue port bytes :: rest) :
    step s =
      match decode port bytes with
      | .ok i => exec i { s with pending := rest }
      | .error e => rejectRequest e { s with pending := rest } := by
  cases hd : decode port bytes <;> simp [step, takeRequest_cons h, hd]

/-- A run of no steps. -/
theorem core_run_zero (s : State) : Sys2Proof.core.run 0 s = .next s := rfl

theorem run_next (M : Host.Core) {s t : M.State} (h : M.step s = .next t) (k : Nat) : M.run (k + 1) s = M.run k t := by
  rw [Host.Core.run, h]

/-- A run whose first step gives a next state goes on from there. -/
theorem core_run_next {s t : State} (h : step s = .next t) (k : Nat) :
    Sys2Proof.core.run (k + 1) s = Sys2Proof.core.run k t := run_next Sys2Proof.core h k

end Sys2Proof.Machine
end

