-- ==== Sys2Proof/Tests/Slice0.lean ====
section
/-! SUPPORT. Tests. Expected values come from spec/95_test_vectors.md, or are worked out by hand from the rule named; the
words of the decode tests are written out from R56, R57 and R41. The theorems named `witness_` show, for each statement
with hypotheses, a state and operands that meet them. -/

namespace Sys2Proof.Tests

open Machine

set_option maxRecDepth 100000

/-- A block with the given buffer and no request. -/
def blk (fb : List Byte) (cap : Nat := 2048) : State :=
  { config := { fbCap := cap }, fb := fb, pending := [], response := none }

/-- A block with the given buffer and one request. -/
def asked (r : Request) (fb : List Byte) : State := { blk fb with pending := [r] }

/-- The instruction gives a next state that differs from the one before in the buffer and the response only. -/
def gives (i : Instr) (s : State) (r : Response) (fb : List Byte) : Bool :=
  match exec i s with
  | .next t => decide (t = { s with fb := fb, response := some r })
  | .fault _ => false
  | .refused _ => false

/-- The step refuses, for this reason. -/
def refuses (s : State) (e : DecodeError) : Bool :=
  match step s with
  | .next _ => false
  | .fault _ => false
  | .refused r => decide (r = .malformedRequest e)

/-- The step gives this next state. -/
def stepsTo (s t : State) : Bool :=
  match step s with
  | .next u => decide (u = t)
  | .fault _ => false
  | .refused _ => false

/-- A pure instruction answers `Ok` with a result and leaves a small buffer alone. -/
def pureOk (i : Instr) (r : Result) : Bool := gives i (blk [0xF9, 0x07]) ⟨.ok, r⟩ [0xF9, 0x07]

/-- A pure instruction answers with a failure status and leaves a small buffer alone. -/
def pureFails (i : Instr) (st : Status) : Bool := gives i (blk [0xF9, 0x07]) ⟨st, .none⟩ [0xF9, 0x07]

/-- What decoding refuses with. -/
def badRequest (port : Port) (bytes : List Byte) (e : DecodeError) : Bool :=
  match decode port bytes with
  | .ok _ => false
  | .error e' => decide (e' = e)

/-- What decoding gives. -/
def reads (port : Port) (bytes : List Byte) (i : Instr) : Bool :=
  match decode port bytes with
  | .ok j => decide (j = i)
  | .error _ => false

/-- The bytes of frame 1 of 95_test_vectors.md. -/
def wire1 : List Byte := [0xF9, 0x07, 0xEF, 0x09, 0x41, 0x54, 0x0D, 0x0A, 0x39, 0xF9]

/-- The bytes of frame 2 of 95_test_vectors.md section 5. -/
def wire2 : List Byte := [0xF9, 0x0B, 0xEF, 0x05, 0x4F, 0x4B, 0xB7, 0xF9]

def frame1 : Frame := ⟨0x07, 0xEF, [0x41, 0x54, 0x0D, 0x0A]⟩

def frame2 : Frame := ⟨0x0B, 0xEF, [0x4F, 0x4B]⟩

/-! ### Well-formedness: each check refuses an ill-formed term -/

theorem test_frame_wf : Frame.WellFormed ⟨7, 0xEF, List.replicate 127 0⟩ = true ∧
    Frame.WellFormed ⟨7, 0xEF, List.replicate 128 0⟩ = false := by decide

/-- The host's parameters of program P6 (95_test_vectors.md section 7). -/
def host : HostParams :=
  { nChannels := 3, crCommand := 1, crOut := 1, pfOut := 0, crDisc := 1, pfDisc := 1, crClose := 1, pfClose := 0,
    placeholder := 0x00, cldBytes := [0xC3, 0x01], discOrder := [1, 2], ioError := .perChannel, oversize := .boundReads,
    atRetries := 1, atOkFirst := true }

theorem test_host_wf : host.WellFormed = true ∧
    HostParams.WellFormed { host with nChannels := 65, discOrder := (List.range 65).tail } = false ∧
    HostParams.WellFormed { host with discOrder := [0, 1, 2] } = false ∧
    HostParams.WellFormed { host with discOrder := [2] } = false := by decide

theorem test_request_empty : badRequest .operation [] .emptyRequest = true ∧
    badRequest .control [] .emptyRequest = true := by decide
theorem test_request_select : badRequest .operation [0x20] .selectOutOfRange = true ∧
    badRequest .operation [0xFF, 0x00] .selectOutOfRange = true := by decide
theorem test_request_missing : badRequest .operation [0x00, 0x01, 0x01] .operandMissing = true ∧
    badRequest .operation [0x18, 0x02, 0xF9] .operandMissing = true ∧
    badRequest .operation [0x0E, 0xFF] .operandMissing = true := by decide
theorem test_request_range : badRequest .operation [0x00, 0x40, 0x01, 0x01] .operandOutOfRange = true ∧
    badRequest .operation [0x04, 0x07, 0x02] .operandOutOfRange = true ∧
    badRequest .operation [0x0C, 0x2F, 0x08] .operandOutOfRange = true := by decide
theorem test_request_trailing : badRequest .operation [0x19, 0x00] .trailingBytes = true ∧
    badRequest .control [0x3F, 0x00] .trailingBytes = true := by decide
theorem test_request_illegal : badRequest .operation [0x07] .illegalOp = true ∧
    badRequest .operation [0x08, 0x06, 0x00] .illegalOp = true ∧
    badRequest .operation [0x0C, 0x2F, 0x07] .illegalOp = true := by decide
theorem test_request_untyped : badRequest .control [0x2E] (.unsupportedFrameType 0x2E) = true ∧
    badRequest .control [0xF9] (.unsupportedFrameType 0xF9) = true := by decide

/-! ### Decoding: one word of every row, from R56, R57 and R41 -/

theorem test_decode_address : reads .operation [0x00, 0x0F, 0x00, 0x01] (.addrPack 0x0F 0 1) = true ∧
    reads .operation [0x01, 0x3F] (.addrGetEa 0x3F) = true ∧ reads .operation [0x02, 0xA6] (.addrGetCr 0xA6) = true ∧
    reads .operation [0x03, 0xA7] (.addrGetDlci 0xA7) = true ∧
    reads .operation [0x04, 0x3E, 0x01] (.addrSetEa 0x3E 1) = true ∧
    reads .operation [0x05, 0x3C, 0x01] (.addrSetCr 0x3C 1) = true ∧
    reads .operation [0x06, 0xFF, 0x3F] (.addrSetDlci 0xFF 63) = true := by decide
theorem test_decode_control : reads .operation [0x08, 0x04, 0x01] (.ctrlPack .uih 1) = true ∧
    reads .operation [0x09, 0xFF] (.ctrlGetPf 0xFF) = true ∧ reads .operation [0x0A, 0x63] (.ctrlGetType 0x63) = true ∧
    reads .operation [0x0B, 0x2F, 0x01] (.ctrlSetPf 0x2F 1) = true ∧
    reads .operation [0x0C, 0x3F, 0x03] (.ctrlSetType 0x3F .disc) = true := by decide
theorem test_decode_length : reads .operation [0x0E, 0x80] (.lenPack 128) = true ∧
    reads .operation [0x0E, 0xFF, 0xFF, 0x02] (.lenPack 512) = true ∧
    reads .operation [0x0F, 0x09] (.lenUnpack 0x09) = true := by decide
theorem test_decode_fcs : reads .operation [0x10, 0x07, 0xEF, 0x09, 0x02, 0x41, 0x54]
      (.fcsCompute 0x07 0xEF 0x09 [0x41, 0x54]) = true ∧
    reads .operation [0x11, 0x07, 0x03, 0x03, 0x01, 0xAA, 0x39] (.fcsCheck 0x07 0x03 0x03 [0xAA] 0x39) = true := by decide
theorem test_decode_frame : reads .operation [0x14, 0x0B, 0xEF, 0x01, 0xF9] (.frameEncode ⟨0x0B, 0xEF, [0xF9]⟩) = true ∧
    reads .operation [0x15, 0x02, 0xF9, 0x07] (.frameDecode [0xF9, 0x07]) = true := by decide
theorem test_decode_buffer : reads .operation [0x18, 0x03, 0xF9, 0x07, 0xEF] (.fbIngest [0xF9, 0x07, 0xEF]) = true ∧
    reads .operation [0x19] .fbExtract = true ∧ reads .operation [0x1A] .fbDrain = true := by decide
theorem test_decode_types : reads .control [0x2F] (.sabm 0) = true ∧ reads .control [0x73] (.ua 1) = true ∧
    reads .control [0x0F] (.dm 0) = true ∧ reads .control [0x53] (.disc 1) = true ∧
    reads .control [0xEF] (.uih 0) = true ∧ reads .control [0x13] (.ui 1) = true := by decide
theorem test_encode_long : encode (.fbIngest (List.replicate 256 0x55)) =
    [0x18, 0xFF, 0x01] ++ List.replicate 256 0x55 := by decide

/-- Words as the opcode table numbers them: a select code in use is the operation, any other type code the frame type. -/
theorem test_table_word : decodeTableWord 8 0x00 = some (.addrPack 0 0 0) ∧ decodeTableWord 8 0x1A = some .fbDrain ∧
    decodeTableWord 8 0x11 = some (.fcsCheck 0 0 0 [] 0) ∧ decodeTableWord 8 0x63 = some (.ua 0) ∧
    decodeTableWord 8 0x07 = none := by decide

theorem test_withFetchWord : stepsTo (State.reset.withFetchWord 8 0xEF)
    { State.reset with response := some ⟨.ok, .controlInfo 0xEF .uih 0 .header⟩ } = true := by decide

/-! ### Field operations (95_test_vectors.md sections 1 and 2) -/

theorem test_addrPack : pureOk (.addrPack 0x0F 1 1) (.byte 0x3F) = true ∧ pureOk (.addrPack 3 0 0) (.byte 0x0C) = true ∧
    pureOk (.addrPack 63 0 1) (.byte 0xFD) = true ∧ pureOk (.addrPack 2 1 1) (.byte 0x0B) = true := by decide
theorem test_addrGetEa : pureOk (.addrGetEa 0xF9) (.bit 1) = true ∧ pureOk (.addrGetEa 0xA6) (.bit 0) = true := by decide
theorem test_addrGetCr : pureOk (.addrGetCr 0xF9) (.bit 0) = true ∧ pureOk (.addrGetCr 0xA6) (.bit 1) = true := by decide
theorem test_addrGetDlci : pureOk (.addrGetDlci 0xF9) (.dlci 62) = true ∧ pureOk (.addrGetDlci 0xA6) (.dlci 41) = true := by
  decide
theorem test_addrSetEa : pureOk (.addrSetEa 0xFF 0) (.byte 0xFE) = true ∧ pureOk (.addrSetEa 0x0C 1) (.byte 0x0D) = true := by
  decide
theorem test_addrSetCr : pureOk (.addrSetCr 0xA6 0) (.byte 0xA4) = true ∧ pureOk (.addrSetCr 0xF9 1) (.byte 0xFB) = true := by
  decide
theorem test_addrSetDlci : pureOk (.addrSetDlci 0xF9 0) (.byte 0x01) = true ∧
    pureOk (.addrSetDlci 0xA6 63) (.byte 0xFE) = true ∧ pureOk (.addrSetDlci 0x07 21) (.byte 0x57) = true := by decide
theorem test_ctrlPack : pureOk (.ctrlPack .sabm 1) (.byte 0x3F) = true ∧ pureOk (.ctrlPack .ua 0) (.byte 0x63) = true ∧
    pureOk (.ctrlPack .dm 1) (.byte 0x1F) = true ∧ pureOk (.ctrlPack .disc 1) (.byte 0x53) = true ∧
    pureOk (.ctrlPack .uih 1) (.byte 0xFF) = true ∧ pureOk (.ctrlPack .ui 0) (.byte 0x03) = true := by decide
theorem test_ctrlGetPf : pureOk (.ctrlGetPf 0xF9) (.bit 1) = true ∧ pureOk (.ctrlGetPf 0xE3) (.bit 0) = true := by decide
theorem test_ctrlGetType : pureOk (.ctrlGetType 0x1F) (.frameType .dm) = true ∧
    pureOk (.ctrlGetType 0xFF) (.frameType .uih) = true := by decide
theorem test_ctrlGetType_unsupported : ∀ c ∈ ([0x00, 0x10, 0x01, 0xE3, 0xF9, 0x2E] : List Byte),
    pureFails (.ctrlGetType c) (.unsupportedFrameType c) = true := by decide
theorem test_ctrlSetPf : pureOk (.ctrlSetPf 0x3F 0) (.byte 0x2F) = true ∧ pureOk (.ctrlSetPf 0x2E 1) (.byte 0x3E) = true := by
  decide
theorem test_ctrlSetType : pureOk (.ctrlSetType 0x3F .ua) (.byte 0x73) = true ∧
    pureOk (.ctrlSetType 0xE3 .ui) (.byte 0x03) = true ∧ pureOk (.ctrlSetType 0xF9 .ua) (.byte 0x73) = true := by decide
theorem test_lenPack : pureOk (.lenPack 0) (.byte 0x01) = true ∧ pureOk (.lenPack 10) (.byte 0x15) = true ∧
    pureOk (.lenPack 127) (.byte 0xFF) = true := by decide
theorem test_lenPack_overflow : pureFails (.lenPack 128) (.lengthOverflow 128) = true ∧
    pureFails (.lenPack 1024) (.lengthOverflow 1024) = true := by decide
theorem test_lenUnpack : pureOk (.lenUnpack 0x01) (.length 0) = true ∧ pureOk (.lenUnpack 0x09) (.length 4) = true ∧
    pureOk (.lenUnpack 0xFF) (.length 127) = true := by decide
theorem test_lenUnpack_unsupported : ∀ b ∈ ([0x00, 0x08, 0xFE] : List Byte),
    pureFails (.lenUnpack b) (.unsupportedLength b) = true := by decide

/-! ### Frame types (R41, R52) -/

theorem test_types : pureOk (.sabm 1) (.controlInfo 0x3F .sabm 1 .header) = true ∧
    pureOk (.ua 0) (.controlInfo 0x63 .ua 0 .header) = true ∧ pureOk (.dm 1) (.controlInfo 0x1F .dm 1 .header) = true ∧
    pureOk (.disc 1) (.controlInfo 0x53 .disc 1 .header) = true ∧
    pureOk (.uih 0) (.controlInfo 0xEF .uih 0 .header) = true ∧
    pureOk (.ui 1) (.controlInfo 0x13 .ui 1 .headerAndContent) = true := by decide

/-! ### Checksum (95_test_vectors.md section 3) -/

theorem test_crc : crc8Rohc [0x31, 0x32, 0x33, 0x34, 0x35, 0x36, 0x37, 0x38, 0x39] = 0xD0 ∧ crc8Rohc [] = 0xFF ∧
    crc8Rohc [0x03, 0x3F, 0x03] = 0x00 ∧ crc8Rohc [0x07, 0xEF, 0x09, 0x39] = 0xCF := by decide
theorem test_fcsCompute : pureOk (.fcsCompute 0x07 0xEF 0x09 [0x41, 0x54, 0x0D, 0x0A]) (.byte 0x39) = true ∧
    pureOk (.fcsCompute 0x3F 0xFF 0x15 [0x41, 0x54, 0x0D, 0x0A]) (.byte 0x23) = true ∧
    pureOk (.fcsCompute 0x07 0x00 0x03 [0xAA]) (.byte 0x2A) = true := by decide
theorem test_fcsCompute_ui : pureOk (.fcsCompute 0x07 0x03 0x09 [0x41, 0x54, 0x0D, 0x0A]) (.byte 0xD3) = true ∧
    pureOk (.fcsCompute 0x07 0x13 0x09 [0x41, 0x54, 0x0D, 0x0A]) (.byte 0x21) = true := by decide
theorem test_fcsCheck : pureOk (.fcsCheck 0x07 0xEF 0x09 [0x41, 0x54, 0x0D, 0x0A] 0x39) (.bit 1) = true ∧
    pureOk (.fcsCheck 0x07 0xEF 0x09 [0x41, 0x54, 0x0D, 0x0A] 0x38) (.bit 0) = true ∧
    pureOk (.fcsCheck 0x07 0x03 0x09 [0x41, 0x54, 0x0D, 0x0B] 0xD3) (.bit 0) = true := by decide

/-! ### Frames (95_test_vectors.md section 4) -/

theorem test_frameEncode : pureOk (.frameEncode frame1) (.bytes wire1) = true ∧
    pureOk (.frameEncode ⟨0x07, 0x13, [0x41, 0x54, 0x0D, 0x0A]⟩)
      (.bytes [0xF9, 0x07, 0x13, 0x09, 0x41, 0x54, 0x0D, 0x0A, 0x21, 0xF9]) = true ∧
    pureOk (.frameEncode ⟨0xF9, 0xF9, [0xF9]⟩) (.bytes [0xF9, 0xF9, 0xF9, 0x03, 0xF9, 0x6A, 0xF9]) = true := by decide
theorem test_frameEncode_bounds : pureOk (.frameEncode ⟨0x07, 0x03, List.replicate 127 0x55⟩)
      (.bytes ([0xF9, 0x07, 0x03, 0xFF] ++ List.replicate 127 0x55 ++ [0x20, 0xF9])) = true ∧
    pureFails (.frameEncode ⟨0x07, 0xEF, List.replicate 128 0x00⟩) (.lengthOverflow 128) = true := by decide
theorem test_frameDecode : pureOk (.frameDecode ([0xAA, 0xBB] ++ wire1 ++ [0xCC])) (.decoded ⟨frame1, 12, 2⟩) = true ∧
    pureOk (.frameDecode [0xF9, 0x0B, 0xEF, 0x03, 0xF9, 0x53, 0xF9]) (.decoded ⟨⟨0x0B, 0xEF, [0xF9]⟩, 7, 0⟩) = true := by
  decide
theorem test_frameDecode_fails : pureFails (.frameDecode [0x00, 0x01, 0x02]) .noFlag = true ∧
    pureFails (.frameDecode [0xF9, 0x07, 0xEF]) .truncated = true ∧
    pureFails (.frameDecode [0xF9, 0x07, 0xEF, 0x02]) (.unsupportedLength 0x02) = true ∧
    pureFails (.frameDecode [0xF9, 0x07, 0xEF, 0x01, 0x37]) .truncated = true ∧
    pureFails (.frameDecode [0xF9, 0x07, 0xEF, 0x09, 0x41, 0x54, 0x0D, 0x0A, 0x38, 0x00]) .noClosingFlag = true ∧
    pureFails (.frameDecode [0xF9, 0x06, 0xEF, 0x09, 0x41, 0x54, 0x0D, 0x0A, 0x39, 0xF9]) .fcsMismatch = true := by decide

/-! ### The FrameBuffer (95_test_vectors.md sections 5 and 6) -/

theorem test_fbIngest : gives (.fbIngest [1, 2, 3, 4, 5, 6]) (blk wire1 16) ⟨.ok, .none⟩
    (wire1 ++ [1, 2, 3, 4, 5, 6]) = true := by decide
theorem test_fbIngest_overflow : gives (.fbIngest wire2) (blk wire1 16) ⟨.overflow 10 8, .none⟩ wire1 = true ∧
    gives (.fbIngest []) (blk wire1 10) ⟨.ok, .none⟩ wire1 = true := by decide
theorem test_fbExtract : gives .fbExtract (blk ([0xAA, 0xBB] ++ wire1 ++ [0xCC])) ⟨.ok, .frame frame1⟩ [0xCC] = true ∧
    gives .fbExtract (blk ([0xF9, 0xF9, 0x17, 0x03, 0x05, 0xF9, 0xF9, 0x0F, 0xF9]))
      ⟨.ok, .frame ⟨0xF9, 0x17, [0x05]⟩⟩ [0x0F, 0xF9] = true := by decide
theorem test_fbExtract_noFrame : gives .fbExtract (blk [0x00, 0x11, 0x22, 0x33]) ⟨.noFrame, .none⟩ [] = true ∧
    gives .fbExtract (blk ([0x07, 0xEF, 0x09, 0x41, 0x54, 0x0D, 0x0A, 0x38, 0xF9] ++ wire2)) ⟨.noFrame, .none⟩ wire2 = true := by
  decide
theorem test_fbDrain : gives .fbDrain (blk (wire1 ++ [0xF9] ++ wire2)) ⟨.ok, .frames [frame1, frame2]⟩ [] = true ∧
    gives .fbDrain (blk [0x00, 0x11, 0x22, 0x33]) ⟨.ok, .frames []⟩ [0x00, 0x11, 0x22, 0x33] = true := by decide

/-- The 32-byte example of 43_frame_buffer.md section 3. -/
theorem test_fbDrain_example : gives .fbDrain (blk ([0x0D, 0x0A] ++ wire1 ++
      [0xF9, 0x07, 0xEF, 0x09, 0x41, 0x54, 0x0D, 0x0A, 0x38, 0xF9] ++ wire2 ++ [0xF9, 0x07]))
    ⟨.ok, .frames [frame1, frame2]⟩ [0x07] = true := by decide

/-! ### The step -/

theorem test_step_idle : stepsTo (blk [1, 2]) (blk [1, 2]) = true := by decide
theorem test_step_reset : stepsTo (asked .reset wire1) (blk []) = true := by decide
theorem test_step_illegal : stepsTo (asked (.issue .operation [0x1F]) wire1)
    { blk wire1 with response := some ⟨.illegalOp, .none⟩ } = true := by decide
theorem test_step_refuses : refuses (asked (.issue .operation [0x04, 0x07, 0x02]) wire1) .operandOutOfRange = true := by
  decide
theorem test_status_codes : [Status.ok, .noFrame, .noFlag, .truncated, .unsupportedLength 0, .noClosingFlag, .fcsMismatch,
    .unsupportedFrameType 0, .lengthOverflow 128, .overflow 10 8, .illegalOp].map Status.code = List.range 11 := by decide

/-! ### The host (95_test_vectors.md S8, S9 and P6; R149 to R152) -/

/-- The host with its loop running and a channel table of two, in a world that answers writes as given. -/
def running (answers : List WriteAnswer) : System :=
  let sys := System.created { host with nChannels := 2, discOrder := [1] } answers
  { sys with host := { sys.host with running := true } }

/-- The frame for channel 41 of S8. -/
def wire41 : List Byte := [0xF9, 0xA7, 0xEF, 0x05, 0x4F, 0x4B, 0x33, 0xF9]

/-- S8: the frame for channel 41 is dropped and the next one is still delivered to channel 1. -/
theorem test_host_unknown_channel :
    let sys := (running []).iterate host [.serialReadable (wire41 ++ wire1)]
    sys.host.log = [.unknownChannel 41] ∧ sys.block.fb = [] ∧
      sys.host.delivered = [(1, [0x41, 0x54, 0x0D, 0x0A])] := by decide

/-- R151: the failed delivery of the first of two frames ends the iteration; the endpoint stays bound. -/
theorem test_host_write_fails :
    let sys := (running [.failed]).iterate host [.serialReadable (wire1 ++ wire1), .endpointReadable 1 [0x41]]
    sys.host.log = [.transportIOError (some 1)] ∧ sys.host.delivered = [] ∧ sys.host.serialOut = [] ∧
      sys.host.channels = [Channel.fresh, { Channel.fresh with failed := true }] ∧ sys.host.running = true := by decide

/-- R151 with the fatal policy: the process ends and its endpoints are released. -/
theorem test_host_fatal :
    let sys := (running []).iterate { host with ioError := .fatal } [.endpointError 0, .serialReadable wire1]
    sys.host.running = false ∧ sys.host.channels = [] ∧ sys.host.delivered = [] := by decide

theorem test_host_startUp : ((System.created host).startUp host).host.serialOut =
    [0xF9, 0x03, 0x3F, 0x03, 0x00, 0xFF, 0xF9, 0xF9, 0x07, 0x3F, 0x03, 0x00, 0x3D, 0xF9,
      0xF9, 0x0B, 0x3F, 0x03, 0x00, 0xBA, 0xF9] := by decide

/-- R151: a serial write that fails in the steady state sends nothing and, per channel, affects no channel. -/
theorem test_host_serial_write_fails :
    let sys := (running [.failed]).iterate host [.endpointReadable 1 [0x41], .serialReadable wire1]
    sys.host.log = [.transportIOError none] ∧ sys.host.serialOut = [] ∧ sys.host.delivered = [] ∧
      sys.host.channels = [Channel.fresh, Channel.fresh] ∧ sys.host.running = true := by decide

theorem test_host_outbound : ((System.created host).outbound host 1 [0x41, 0x54, 0x0D]).host.serialOut =
    [0xF9, 0x07, 0xEF, 0x07, 0x41, 0x54, 0x0D, 0xD3, 0xF9] := by decide

theorem test_host_shutDown : ((System.created host).shutDown host).host.serialOut =
    [0xF9, 0x07, 0x53, 0x03, 0x00, 0xDC, 0xF9, 0xF9, 0x0B, 0x53, 0x03, 0x00, 0x5B, 0xF9,
      0xF9, 0x03, 0xEF, 0x05, 0xC3, 0x01, 0xF2, 0xF9] ∧
    ((System.created host).shutDown host).host.channels.map Channel.bound = [false, false, false] := by decide

/-- S9: the text OK is success, silence is a timeout. -/
theorem test_host_at : atCommand true 2 [some [0x41, 0x54, 0x0D, 0x4F, 0x4B, 0x0D, 0x0A]] = .success ∧
    atCommand true 2 [none, none, some [0x4F, 0x4B]] = .timedOut ∧
    atCommand true 2 [none, some [0x45, 0x52, 0x52, 0x4F, 0x52]] = .commandFailed := by decide

/-- R152: the command is written also where no answer comes, and start-up ends there. -/
theorem test_host_bringUp_times_out :
    let r := System.bringUp host [⟨[0x41, 0x54, 0x0D], [none]⟩] (System.created host)
    r.2 = .timedOut ∧ r.1.host.serialOut = [0x41, 0x54, 0x0D] ∧ r.1.host.running = false := by decide

/-! ### The hypotheses of the statements can be met -/

/-- A block with one request of these bytes at the port. -/
def asks (port : Port) (bytes : List Byte) : State := asked (.issue port bytes) wire1

theorem witness_DecodeEncodeRoundTrip : Instr.WellFormed (.fcsCheck 0xFF 0xFF 0xFF (List.replicate 300 0xFF) 0xFF) = true :=
  rfl

theorem witness_DecodedBytesAreTheEncoding :
    decode .operation [0x18, 0xFF, 0x00] = .error .operandMissing ∧
    decode .operation [0x0E, 0xFF, 0x00] = .ok (.lenPack 255) ∧ decode .control [0xFF] = .ok (.uih 1) := ⟨rfl, rfl, rfl⟩

theorem witness_ReservedSelectCodesAreIllegal :
    (0x1F : Byte) ∈ ([0x07, 0x0D, 0x12, 0x13, 0x16, 0x17, 0x1B, 0x1C, 0x1D, 0x1E, 0x1F] : List Byte) ∧
    (asks .operation [0x1F, 0xF9]).pending = .issue .operation (0x1F :: [0xF9]) :: [] := by decide

theorem witness_FrameTypeOperandCodes :
    ((5, .ui) : Byte × FrameType) ∈ ([(0, .sabm), (1, .ua), (2, .dm), (3, .disc), (4, .uih), (5, .ui)] : List (Byte × FrameType)) ∧
    (7 : Byte) ∈ ([6, 7] : List Byte) ∧ (asks .operation [0x08, 7, 0xFF]).pending = [.issue .operation [0x08, 7, 0xFF]] ∧
    (asks .operation [0x0C, 0xEF, 6]).pending = [.issue .operation [0x0C, 0xEF, 6]] := by decide

theorem witness_ControlBytesWithAType :
    (0x13 : Byte) ∈ ([0x2F, 0x3F, 0x63, 0x73, 0x0F, 0x1F, 0x43, 0x53, 0xEF, 0xFF, 0x03, 0x13] : List Byte) ∧
    (0x12 : Byte) ∉ ([0x2F, 0x3F, 0x63, 0x73, 0x0F, 0x1F, 0x43, 0x53, 0xEF, 0xFF, 0x03, 0x13] : List Byte) ∧
    (asks .control [0x12]).pending = [.issue .control [0x12]] := by decide

theorem witness_WideOperandsAreRefused : (0x02 : Byte).toNat > 1 ∧ (0x04 : Byte) ∈ ([0x04, 0x05, 0x0B] : List Byte) ∧
    (asks .operation [0x04, 0x07, 0x02]).pending = [.issue .operation [0x04, 0x07, 0x02]] ∧
    (0x40 : Byte).toNat > 63 ∧ (asks .operation [0x06, 0x07, 0x40]).pending = [.issue .operation [0x06, 0x07, 0x40]] ∧
    (asks .operation [0x00, 0x3F, 0x01, 0x02]).pending = [.issue .operation [0x00, 0x3F, 0x01, 0x02]] ∧
    (0x05 : Byte).toNat < 6 ∧ (asks .operation [0x08, 0x05, 0x02]).pending = [.issue .operation [0x08, 0x05, 0x02]] ∧
    (0x08 : Byte).toNat > 7 ∧ (asks .operation [0x08, 0x08, 0x00]).pending = [.issue .operation [0x08, 0x08, 0x00]] ∧
    (asks .operation [0x0C, 0x2F, 0x08]).pending = [.issue .operation [0x0C, 0x2F, 0x08]] := by
  decide

theorem witness_StepRunsTheDecodedInstruction :
    (asks .operation [0x19]).pending = .issue .operation [0x19] :: [] ∧ decode .operation [0x19] = .ok .fbExtract :=
  ⟨rfl, rfl⟩

theorem witness_IdleBlockHoldsItsState : (blk wire1).pending = [] := rfl

theorem witness_ResetRequestEmptiesTheBuffer : (asked .reset wire1).pending = .reset :: [] := rfl

theorem witness_FrameBufferIsEmptyAfterReset :
    (asked .reset wire1).pending = .reset :: [] ∧ step (asked .reset wire1) = .next (blk []) := ⟨rfl, rfl⟩

theorem witness_StepKeepsTheBufferWithinCapacity : (blk wire1 10).Inv ∧
    ∃ t, step { blk wire1 10 with pending := [.issue .operation [0x18, 0x01, 0xF9]] } = .next t :=
  ⟨by unfold State.Inv; decide, _, rfl⟩

theorem witness_NoRunStops : ∀ r ∈ ({ blk wire1 with pending := [.reset, .issue .operation [0x1A], .issue .operation [0x07],
    .issue .control [0x00]] } : State).pending, r.Expressible = true := by decide

theorem witness_EarlierStatusIsNotReadable : (asks .operation [0x1A]).pending ≠ [] := by decide

theorem witness_MemoryPrimitives : 4 + 6 ≤ (blk wire1 10).fb.length ∧ (blk wire1 10).fb.length < 4 + 7 ∧
    (blk wire1 12).fb.length + [0xF9, 0x07].length ≤ (blk wire1 12).config.fbCap ∧
    (blk wire1 11).config.fbCap < (blk wire1 11).fb.length + [0xF9, 0x07].length := by decide

theorem witness_BytesLeaveInTheOrderTheyEntered : (∃ t, exec .fbExtract (blk wire1) = .next t) ∧
    ∃ t, exec (.fbIngest wire2) (blk wire1) = .next t := ⟨⟨_, rfl⟩, _, rfl⟩

theorem witness_OnlyBufferOperationsTouchTheBuffer : Instr.TouchesBuffer (.frameDecode wire1) = false := rfl

theorem witness_CtrlPackResult :
    ((.ui, 0x03) : FrameType × Nat) ∈
      ([(.sabm, 0x2F), (.ua, 0x63), (.dm, 0x0F), (.disc, 0x43), (.uih, 0xEF), (.ui, 0x03)] : List (FrameType × Nat)) ∧
    (6 : Byte) ∈ ([6, 7] : List Byte) ∧ (asks .operation [0x08, 6, 0]).pending = [.issue .operation [0x08, 6, 0]] := by decide

theorem witness_CtrlGetTypeResult :
    ((0x13, .ui) : Byte × FrameType) ∈ ([(0x2F, .sabm), (0x3F, .sabm), (0x63, .ua), (0x73, .ua), (0x0F, .dm), (0x1F, .dm),
      (0x43, .disc), (0x53, .disc), (0xEF, .uih), (0xFF, .uih), (0x03, .ui), (0x13, .ui)] : List (Byte × FrameType)) ∧
    (0xFE : Byte) ∉ ([0x2F, 0x3F, 0x63, 0x73, 0x0F, 0x1F, 0x43, 0x53, 0xEF, 0xFF, 0x03, 0x13] : List Byte) := by decide

theorem witness_CtrlSetTypeResult :
    ((.sabm, 0x2F) : FrameType × Nat) ∈
      ([(.sabm, 0x2F), (.ua, 0x63), (.dm, 0x0F), (.disc, 0x43), (.uih, 0xEF), (.ui, 0x03)] : List (FrameType × Nat)) ∧
    (7 : Byte) ∈ ([6, 7] : List Byte) ∧ (asks .operation [0x0C, 0xFF, 7]).pending = [.issue .operation [0x0C, 0xFF, 7]] := by
  decide

theorem witness_LenPackResult : 127 ≤ 127 ∧ 127 < 128 := by decide

theorem witness_LenUnpackResult : (0x01 : Byte).toNat % 2 = 1 ∧ (0x00 : Byte).toNat % 2 = 0 := by decide

theorem witness_FieldOperationLaws : Returns (.ctrlGetType 0x13) (blk wire1) (.frameType .ui) ∧ 127 ≤ 127 ∧
    (0xFF : Byte).toNat % 2 = 1 := ⟨⟨_, rfl, rfl, rfl, rfl, rfl, fun _ => rfl⟩, by decide, by decide⟩

theorem witness_UntypedControlByteStillDecodes :
    (∀ code ∈ ([0x2F, 0x63, 0x0F, 0x43, 0xEF, 0x03] : List Byte),
      (⟨0x07, 0x00, List.replicate 127 0xAA⟩ : Frame).control &&& 0xEF ≠ code) ∧
    (⟨0x07, 0x00, List.replicate 127 0xAA⟩ : Frame).content.length ≤ 127 := by decide

theorem witness_FcsComputeResult : (0x13 : Byte) &&& 0xEF = 0x03 ∧ (0xFF : Byte) &&& 0xEF ≠ 0x03 := by decide

theorem witness_OneChangedHeaderByteIsDetected :
    Returns (.fcsCompute 0x07 0xEF 0x09 [0x41, 0x54, 0x0D, 0x0A]) (blk []) (.byte 0x39) ∧ (0x06 : Byte) ≠ 0x07 ∧
      (0x08 : Byte) ≠ 0x09 ∧ (0xFF : Byte) ≠ 0xEF ∧ ((0xFF : Byte) &&& 0xEF = 0x03 ↔ (0xEF : Byte) &&& 0xEF = 0x03) :=
  ⟨(returns_iff rfl _ _ (by decide)).2 (by decide), by decide, by decide, by decide, by decide⟩

theorem witness_FrameEncodeResult : (⟨0x07, 0xEF, List.replicate 127 0⟩ : Frame).content.length ≤ 127 ∧
    127 < (⟨0x07, 0xEF, List.replicate 128 0⟩ : Frame).content.length := by decide

/-- The clauses in turn: no FLAG; two bytes behind the FLAG; an even length indicator; a tail one byte short; a wrong
closing byte, a wrong and the right checksum behind an empty content. -/
theorem witness_FrameDecodeResult : FLAG ∉ ([0x00, 0x01] : List Byte) ∧ [(0x07 : Byte), 0xEF].length < 3 ∧
    (0x00 : Byte).toNat % 2 = 0 ∧ (0x01 : Byte).toNat % 2 = 1 ∧ [(0x37 : Byte)].length < (0x01 : Byte).toNat / 2 + 2 ∧
    ([] : List Byte).length = (0x01 : Byte).toNat / 2 ∧ (0x00 : Byte) ≠ FLAG ∧ (0xF9 : Byte) = FLAG ∧
    (0x38 : Byte) ≠ 0xFF ^^^ crc8Rohc [0x07, 0xEF, 0x01] ∧ (0x37 : Byte) = 0xFF ^^^ crc8Rohc [0x07, 0xEF, 0x01] := by decide

theorem witness_FrameRoundTrip : frame1.content.length ≤ 127 ∧ FLAG ∉ ([0xAA, 0xBB] : List Byte) ∧
    Returns (.frameDecode ([0xAA, 0xBB] ++ wire1 ++ [0xCC])) (blk []) (.decoded ⟨frame1, 12, 2⟩) :=
  ⟨by decide, by decide, (returns_iff rfl _ _ (by decide)).2 (by decide)⟩

theorem witness_IngestResult :
    (blk wire1 16).fb.length + [1, 2, 3, 4, 5, 6].length ≤ (blk wire1 16).config.fbCap ∧ 9 < (blk wire1 16).fb.length ∧
    (blk wire1 16).config.fbCap < (blk wire1 16).fb.length + [1, 2, 3, 4, 5, 6, 7].length := by decide

theorem witness_ExtractResult : Returns (.frameDecode (blk wire1).fb) (blk wire1) (.decoded ⟨frame1, 10, 0⟩) ∧
    Raises (.frameDecode (blk [0x07, 0xF9, 0x07]).fb) (blk [0x07, 0xF9, 0x07]) .truncated ∧
    FLAG ∉ ([0x07] : List Byte) ∧ (blk [0x07, 0xF9, 0x07]).fb = [0x07] ++ FLAG :: [0x07] ∧
    Raises (.frameDecode (blk []).fb) (blk []) .noFlag ∧ FLAG ∉ (blk []).fb :=
  ⟨(returns_iff rfl _ _ (by decide)).2 (by decide), (raises_iff rfl _ _ (by decide)).2 (by decide), by decide, rfl,
    (raises_iff rfl _ _ (by decide)).2 (by decide), by decide⟩

theorem witness_ExtractMakesProgress : 0 < (blk wire1).fb.length ∧
    gives .fbExtract (blk wire1) ⟨.ok, .frame frame1⟩ [] = true ∧
    gives .fbExtract (blk [0x07, 0xF9, 0x07]) ⟨.noFrame, .none⟩ [0x07] = true ∧
    (blk [0x07, 0xF9, 0x07]).fb = [0x07] ++ FLAG :: [0x07] ∧ FLAG ∉ ([0x07] : List Byte) ∧
    gives .fbExtract (blk [0x00]) ⟨.noFrame, .none⟩ [] = true ∧ FLAG ∉ (blk [0x00]).fb ∧ (blk []).fb = [] := by decide

theorem witness_DrainRepeatsExtract : FLAG ∉ (blk [0x00]).fb ∧ FLAG ∈ (blk wire1).fb ∧
    gives .fbDrain (blk (wire1 ++ wire2)) ⟨.ok, .frames [frame1, frame2]⟩ [] = true := by decide

theorem witness_DrainLeavesTheResidue : (blk [0x07, 0xF9, 0x08]).fb = [0x07] ++ FLAG :: [0x08] ∧
    FLAG ∉ ([0x08] : List Byte) ∧ FLAG ∉ (blk [0x07]).fb := by decide

theorem witness_ExtractAndDrainDifferWithoutAFlag : FLAG ∉ (blk [0x00, 0x11, 0x22, 0x33]).fb := by decide

theorem witness_OnlyValidSpansAreAccepted :
    gives .fbExtract (blk ([0xAA] ++ wire1 ++ wire2)) ⟨.ok, .frame frame1⟩ wire2 = true ∧
    gives .fbDrain (blk ([0xAA] ++ wire1 ++ wire2)) ⟨.ok, .frames [frame1, frame2]⟩ [] = true := by decide

theorem encodeFrame_frame1 : encodeFrame frame1 = .ok wire1 := rfl

theorem encodeFrame_frame2 : encodeFrame frame2 = .ok wire2 := rfl

theorem witness_CleanStreamIsReturnedWhole :
    (blk [] 20).fb = [] ∧ FLAG ∉ ([0xAA, 0xBB] : List Byte) ∧
    List.Forall₂ (fun f w => encodeFrame f = .ok w) [frame1, frame2] [wire1, wire2] ∧
    [[0xAA], [0xBB] ++ wire1, wire2].flatten = [0xAA, 0xBB] ++ [wire1, wire2].flatten ∧
    [[0xAA], [0xBB] ++ wire1, wire2].flatten.length ≤ (blk [] 20).config.fbCap :=
  ⟨rfl, by decide, .cons encodeFrame_frame1 (.cons encodeFrame_frame2 .nil), by decide, by decide⟩

theorem witness_SplitFrameIsLost : (blk [] 10).fb = [] ∧
    encodeFrame frame1 = .ok ([FLAG] ++ [0x07, 0xEF, 0x09, 0x41, 0x54] ++ [0x0D, 0x0A, 0x39] ++ [FLAG]) ∧
    FLAG ∉ ([0x07, 0xEF, 0x09, 0x41, 0x54] : List Byte) ∧ FLAG ∉ ([0x0D, 0x0A, 0x39] : List Byte) ∧
    frame1.content.length + 6 ≤ (blk [] 10).config.fbCap := ⟨rfl, rfl, by decide, by decide, by decide⟩

theorem witness_SharedFlagLosesTheSecondFrame : encodeFrame frame1 = .ok wire1 ∧
    encodeFrame frame2 = .ok ([FLAG] ++ [0x0B, 0xEF, 0x05, 0x4F, 0x4B, 0xB7] ++ [FLAG]) ∧
    FLAG ∉ ([0x0B, 0xEF, 0x05, 0x4F, 0x4B, 0xB7] : List Byte) ∧
    (blk (wire1 ++ [0x0B, 0xEF, 0x05, 0x4F, 0x4B, 0xB7] ++ [FLAG])).fb =
      wire1 ++ [0x0B, 0xEF, 0x05, 0x4F, 0x4B, 0xB7] ++ [FLAG] := ⟨rfl, rfl, by decide, rfl⟩

theorem witness_StartUpSendsSabmToEveryChannel : host.WellFormed = true ∧
    ∀ a ∈ ([.written, .written, .written] : List WriteAnswer), a = .written := by decide

/-- The clauses in turn: a bound channel in service; an id outside the table; an entry whose endpoint is released; a
control frame; a control byte without a type. -/
theorem witness_RoutingDeliversOrDrops : frame1.control ∈ ([0xEF, 0xFF, 0x03, 0x13] : List Byte) ∧
    (running [.written]).host.channels[frame1.address.toNat / 4]? = some Channel.fresh ∧ Channel.fresh.bound = true ∧
    Channel.fresh.failed = false ∧ (running [.written]).host.writeAnswers.head? ≠ some .failed ∧
    (running []).host.channels[(⟨0xA7, 0xEF, []⟩ : Frame).address.toNat / 4]? = none ∧
    (((running []).shutDown host).host.channels[frame1.address.toNat / 4]?).map Channel.bound = some false ∧
    (0x3F : Byte) ∈ ([0x2F, 0x3F, 0x63, 0x73, 0x0F, 0x1F, 0x43, 0x53] : List Byte) ∧
    (0x17 : Byte) ∉ ([0x2F, 0x3F, 0x63, 0x73, 0x0F, 0x1F, 0x43, 0x53, 0xEF, 0xFF, 0x03, 0x13] : List Byte) := by decide

theorem witness_ShutDownSendsDiscThenCloseDown : host.WellFormed = true ∧ host.cldBytes.length ≤ 127 ∧
    ∀ a ∈ (running [.written]).host.writeAnswers, a = .written := by decide

theorem witness_TransportErrorEndsTheIteration : frame1.control ∈ ([0xEF, 0xFF, 0x03, 0x13] : List Byte) ∧
    (running [.failed]).host.channels[frame1.address.toNat / 4]? = some Channel.fresh ∧ Channel.fresh.bound = true ∧
    Channel.fresh.failed = false ∧ (running [.failed]).host.writeAnswers.head? = some .failed ∧
    (running [.failed]).host.channels[1]? = some Channel.fresh ∧ (running [.failed]).host.workEnded = false ∧
    ((List.replicate 127 (0x55 : Byte)).take host.epScratch).length ≤ 127 ∧ host.oversize ≠ .drop ∧
    host.ioError = .perChannel ∧ ({ host with ioError := .fatal } : HostParams).ioError = .fatal ∧
    (running [.failed]).host.running = true ∧ (running [.failed]).host.cancelled = false ∧
    ((running [.failed]).iterate host [.serialReadable wire1]).host.workEnded = true := by decide

theorem witness_EndpointsStayBoundUntilShutdown : (running []).host.running = true ∧ (running []).host.cancelled = false ∧
    ((running []).iterate host [.serialReadable wire1]).host.running = true ∧
    ((running []).iterate { host with ioError := .fatal } [.serialError]).host.running = false := by decide

theorem witness_CancellationIsObservedAtTheTop : (running []).cancel.host.running = true ∧
    (running []).cancel.host.cancelled = true ∧ (System.created host).host.running = false := by decide

/-- An answer that decides nothing, and then each kind of answer that decides. -/
theorem witness_AtCommandResult :
    (∀ text, some text ∈ [none, some [(0x41 : Byte), 0x54]] →
      ¬ [(0x4F : Byte), 0x4B] <:+: text ∧ ¬ [(0x45 : Byte), 0x52, 0x52, 0x4F, 0x52] <:+: text) ∧
    [none, some [(0x41 : Byte), 0x54]].length < 3 ∧ [(0x4F : Byte), 0x4B] <:+: [0x0D, 0x4F, 0x4B, 0x0D] ∧
    [(0x45 : Byte), 0x52, 0x52, 0x4F, 0x52] <:+: [0x45, 0x52, 0x52, 0x4F, 0x52] ∧
    ¬ [(0x4F : Byte), 0x4B] <:+: [0x45, 0x52, 0x52, 0x4F, 0x52] ∧ 2 ≤ [none, some [(0x41 : Byte), 0x54]].length :=
  ⟨fun text h => by simp at h; subst h; decide, by decide, by decide, by decide, by decide, by decide⟩

theorem witness_BringUpWritesTheCommandsFirst :
    (∀ a ∈ (System.created host).host.writeAnswers, a = .written) ∧
    (∀ x ∈ [(⟨[0x41, 0x54, 0x0D], [some [0x4F, 0x4B]]⟩ : AtExchange)],
      atCommand host.atOkFirst host.atRetries x.responses = .success) ∧
    atCommand host.atOkFirst host.atRetries [none] ≠ .success := by decide

/-- A world without a failure, and one in which the write after the first fails. -/
theorem witness_SerialReadIsDrainedAndRouted : (running [.written]).host.running = true ∧
    (running [.written]).host.cancelled = false ∧ (∀ a ∈ (running [.written]).host.writeAnswers, a = .written) ∧
    (running [.written, .failed]).host.writeAnswers = List.replicate 1 .written ++ .failed :: [] ∧
    1 < ((running [.written, .failed]).host.deliveries [frame1, frame1]).length := by decide

/-- A read of 127 bytes, and one of 128 under each policy that lets it be read. -/
theorem witness_OutboundWrapsOneRead : (running []).host.channels[1]? = some Channel.fresh ∧ Channel.fresh.bound = true ∧
    Channel.fresh.failed = false ∧ (running []).host.workEnded = false ∧
    (∀ a ∈ (running []).host.writeAnswers, a = .written) ∧ host.oversize = .boundReads ∧
    ((List.replicate 127 (0x55 : Byte)).take host.epScratch).length ≤ 127 ∧
    127 < ((List.replicate 128 (0x55 : Byte)).take host.epScratch).length ∧
    ({ host with oversize := .drop } : HostParams).oversize = .drop ∧
    ({ host with oversize := .split } : HostParams).oversize = .split := by decide

end Sys2Proof.Tests
end

section
/-! One step at the port (00_scope.md R2, 10_state.md R12). -/

namespace Sys2Proof.Machine

/-- Of the two answers of `step_issue`, the one to bytes that are an instruction. -/
theorem step_issue_of_decode_ok {s : State} {port : Port} {bytes : List Byte} {rest : List Request} {i : Instr}
    (hp : s.pending = .issue port bytes :: rest) (hd : decode port bytes = .ok i) :
    step s = exec i { s with pending := rest } := by
  rw [step_issue hp, hd]

/-- Settles O8: the head request is an issue, and its bytes decode to an instruction. -/
theorem stepRunsTheDecodedInstruction : Obligations.StepRunsTheDecodedInstruction := by
  unfold Obligations.StepRunsTheDecodedInstruction
  intro s port bytes rest i hp hd
  exact step_issue_of_decode_ok hp hd

end Sys2Proof.Machine
end

section
/-! What one instruction and one step can do to the buffer, and the statements about the block's state (10_state.md R10
to R19). -/

namespace Sys2Proof.Machine

/-! ### The buffer after an extraction and after a drain -/

/-- An extraction removes bytes at the head only. -/
theorem extractOne_suffix (fb : Memory) : (extractOne fb).2 <:+ fb := by
  rcases extractOne_cases fb with ⟨_, g, w, _, _, hfb, _⟩ | ⟨g, _, hfb, _⟩ | ⟨_, hnil⟩
  · exact ⟨g ++ w, hfb.symm⟩
  · exact ⟨g ++ [FLAG], by simpa using hfb.symm⟩
  · simp [hnil]

/-- So does a drain, which is a sequence of extractions. -/
theorem drainAll_suffix (fb : Memory) : (drainAll fb).2 <:+ fb := by
  induction fb using drain_induction with
  | hn fb h => simp [drainAll_no_flag h]
  | hs fb h ih => simpa [drainAll_flag h] using ih.trans (extractOne_suffix fb)

/-! ### One instruction -/

/-- An instruction that does not touch the buffer gives a next state that differs in the response only, and the response
is the same from every state. -/
theorem exec_pure_next {i : Instr} (h : i.TouchesBuffer = false) :
    ∃ a : Response, ∀ s : State, exec i s = .next { s with response := some a } := by
  cases hr : pureResult i with
  | ok r => exact ⟨⟨.ok, r⟩, fun s => by rw [exec_pure h, hr]; rfl⟩
  | error st => exact ⟨⟨st, .none⟩, fun s => by rw [exec_pure h, hr]; rfl⟩

/-- The three operations that may touch the buffer, and all others (R19). -/
theorem touchesBuffer_cases (i : Instr) :
    (∃ bytes, i = .fbIngest bytes) ∨ i = .fbExtract ∨ i = .fbDrain ∨ i.TouchesBuffer = false := by
  cases i with
  | fbIngest bytes => exact .inl ⟨bytes, rfl⟩
  | fbExtract => exact .inr (.inl rfl)
  | fbDrain => exact .inr (.inr (.inl rfl))
  | _ => exact .inr (.inr (.inr rfl))

/-- Everything an instruction can do to the rest of the state: it keeps the parameter and the requests to come, and it
removes bytes of `FB` at the head, or is an FB.INGEST whose bytes fit and appends them (R19 to R22). -/
theorem exec_next_cases {i : Instr} {s t : State} (h : exec i s = .next t) :
    t.config = s.config ∧ t.pending = s.pending ∧
      (t.fb <:+ s.fb ∨
        ∃ bytes, i = .fbIngest bytes ∧ s.fb.length + bytes.length ≤ s.config.fbCap ∧ t.fb = s.fb ++ bytes) := by
  rcases touchesBuffer_cases i with ⟨bytes, rfl⟩ | rfl | rfl | hpure
  · rw [exec_fbIngest, execFbIngest_eq] at h
    split at h
    · cases h
      exact ⟨rfl, rfl, .inl List.suffix_rfl⟩
    next hfits =>
      cases h
      exact ⟨rfl, rfl, .inr ⟨bytes, rfl, Nat.le_of_not_lt hfits, rfl⟩⟩
  · rw [exec_fbExtract, execFbExtract_eq] at h
    split at h <;> cases h <;> exact ⟨rfl, rfl, .inl (extractOne_suffix s.fb)⟩
  · rw [exec_fbDrain, execFbDrain_eq] at h
    cases h
    exact ⟨rfl, rfl, .inl (drainAll_suffix s.fb)⟩
  · obtain ⟨a, ha⟩ := exec_pure_next hpure
    cases (ha s).symm.trans h
    exact ⟨rfl, rfl, .inl List.suffix_rfl⟩

/-- The stored response is overwritten by every instruction and read by none (R13). -/
theorem exec_ignores_response (i : Instr) (s : State) (r : Option Response) :
    exec i { s with response := r } = exec i s := by
  rcases touchesBuffer_cases i with ⟨bytes, rfl⟩ | rfl | rfl | hpure
  · exact (execFbIngest_eq bytes _).trans (execFbIngest_eq bytes s).symm
  · exact (execFbExtract_eq _).trans (execFbExtract_eq s).symm
  · exact (execFbDrain_eq _).trans (execFbDrain_eq s).symm
  · obtain ⟨a, ha⟩ := exec_pure_next hpure
    rw [ha, ha]

/-- Nor does the port read it where it rejects a request. -/
theorem rejectRequest_ignores_response (e : DecodeError) (s : State) (r : Option Response) :
    rejectRequest e { s with response := r } = rejectRequest e s := by
  cases e <;> rfl

/-- The capacity invariant depends on the parameter and the buffer's length (R10). -/
theorem State.inv_iff (s : State) : s.Inv ↔ s.fb.length ≤ s.config.fbCap := by simp [State.Inv]

theorem exec_keeps_inv {i : Instr} {s t : State} (hs : s.Inv) (h : exec i s = .next t) : t.Inv := by
  obtain ⟨hconfig, -, hfb⟩ := exec_next_cases h
  rw [State.inv_iff] at hs ⊢
  rw [hconfig]
  rcases hfb with hsuffix | ⟨bytes, -, hfits, happend⟩
  · exact hsuffix.length_le.trans hs
  · simpa [happend] using hfits

/-! ### One step -/

/-- Everything a step that gives a next state can do: idle, reset the block, run an instruction, or answer bytes that
are none with a status. -/
theorem step_next_cases {s t : State} (h : step s = .next t) :
    (s.pending = [] ∧ t = s) ∨
    (∃ rest, s.pending = .reset :: rest ∧ t = State.resetBlock { s with pending := rest }) ∨
    (∃ port bytes rest i, s.pending = .issue port bytes :: rest ∧ exec i { s with pending := rest } = .next t) ∨
    ∃ port bytes rest st, s.pending = .issue port bytes :: rest ∧ t = State.raise { s with pending := rest } st := by
  rcases hp : s.pending with _ | ⟨_ | _, rest⟩
  case nil =>
    rw [step_idle hp] at h
    cases h
    exact .inl ⟨rfl, rfl⟩
  case cons.issue port bytes =>
    rw [step_issue hp] at h
    cases hd : decode port bytes with
    | ok i => exact .inr (.inr (.inl ⟨port, bytes, rest, i, rfl, by simpa [hd] using h⟩))
    | error e =>
      simp only [hd] at h
      rcases rejectRequest_cases e { s with pending := rest } with ⟨st, hst⟩ | hrefused
      · cases hst.symm.trans h
        exact .inr (.inr (.inr ⟨port, bytes, rest, st, rfl, rfl⟩))
      · cases hrefused.symm.trans h
  case cons.reset =>
    rw [step_reset hp] at h
    cases h
    exact .inr (.inl ⟨rest, rfl, rfl⟩)

/-- Settles O13: the step lemma of the capacity invariant, over what a step can do. -/
theorem stepKeepsTheBufferWithinCapacity : Obligations.StepKeepsTheBufferWithinCapacity := by
  unfold Obligations.StepKeepsTheBufferWithinCapacity
  intro s t hs h
  rcases step_next_cases h with ⟨-, rfl⟩ | ⟨rest, -, rfl⟩ | ⟨_, _, rest, i, -, hexec⟩ | ⟨_, _, rest, st, -, rfl⟩
  · exact ⟨hs, rfl⟩
  · exact ⟨by simp [State.inv_iff], rfl⟩
  · exact ⟨exec_keeps_inv (s := { s with pending := rest }) hs hexec, (exec_next_cases hexec).1⟩
  · exact ⟨hs, rfl⟩

/-- Settles O19: the next state of every other instruction, read off `exec_pure_next`. -/
theorem onlyBufferOperationsTouchTheBuffer : Obligations.OnlyBufferOperationsTouchTheBuffer := by
  unfold Obligations.OnlyBufferOperationsTouchTheBuffer
  intro i hi s s'
  obtain ⟨a, ha⟩ := exec_pure_next hi
  exact ⟨_, _, ha s, ha s', rfl, ⟨rfl, rfl, rfl, fun _ => rfl⟩, ⟨rfl, rfl, rfl, fun _ => rfl⟩⟩

/-- Settles O11: the reset state as it is defined, and a reset request by `step_reset`. -/
theorem frameBufferIsEmptyAfterReset : Obligations.FrameBufferIsEmptyAfterReset := by
  unfold Obligations.FrameBufferIsEmptyAfterReset
  refine ⟨State.reset_fb, fun s t rest hp h => ?_⟩
  cases (step_reset hp).symm.trans h
  exact State.resetBlock_fb _

/-- Settles O12: the empty buffer is within every capacity. -/
theorem resetStateIsWithinCapacity : Obligations.ResetStateIsWithinCapacity := by
  unfold Obligations.ResetStateIsWithinCapacity
  rw [State.inv_iff, State.reset_fb]
  exact Nat.zero_le _

/-- Settles O16: the response is dropped by a reset and read by neither an instruction nor the port. -/
theorem earlierStatusIsNotReadable : Obligations.EarlierStatusIsNotReadable := by
  unfold Obligations.EarlierStatusIsNotReadable
  intro s r hne
  obtain ⟨q, rest, hp⟩ := List.exists_cons_of_ne_nil hne
  cases q with
  | reset =>
    rw [step_reset (s := { s with response := r }) hp, step_reset hp]
    rfl
  | issue port bytes =>
    rw [step_issue (s := { s with response := r }) hp, step_issue hp]
    cases decode port bytes with
    | ok i => exact exec_ignores_response i { s with pending := rest } r
    | error e => exact rejectRequest_ignores_response e { s with pending := rest } r

end Sys2Proof.Machine
end

section
/-! What one iteration of the host's loop can do to the host: the statement about the channel table (10_state.md R18,
44_host_usage.md R141, R147, R151). -/

namespace Sys2Proof.Machine

/-! ### The two ways in which work of an iteration can leave the host -/

/-- What the statement speaks of in a channel table: the state and the binding of every entry, in order. -/
def channelBindings (channels : List Channel) : List (ChannelState × Bool) :=
  channels.map (fun c => (c.state, c.bound))

/-- Putting a channel out of service changes neither its state nor its binding (R151; log entry 16). -/
theorem channelBindings_modify_failed (channels : List Channel) (id : Nat) :
    channelBindings (channels.modify id (fun c => { c with failed := true })) = channelBindings channels := by
  refine List.ext_getElem? fun i => ?_
  simp only [channelBindings, List.getElem?_map, List.getElem?_modify]
  cases channels[i]? with
  | none => simp
  | some c => by_cases hi : id = i <;> simp [hi]

/-- The loop goes on as before: session, loop and bindings are the same and the log has only grown. -/
structure HostState.RunsOn (h h' : HostState) : Prop where
  session  : h'.sessionClosed = h.sessionClosed
  running  : h'.running = h.running
  bindings : channelBindings h'.channels = channelBindings h.channels
  log      : h.log <+: h'.log

/-- A transport error that the policy makes fatal was logged last, and the process has ended without the shutdown
sequence (R151; log entry 16). -/
structure HostState.EndsFatally (p : HostParams) (h h' : HostState) : Prop where
  session   : h'.sessionClosed = h.sessionClosed
  policy    : p.ioError = .fatal
  stopped   : h'.running = false
  workEnded : h'.workEnded = true
  channels  : h'.channels = []
  log       : ∃ between channel, h'.log = h.log ++ between ++ [.transportIOError channel]

/-- All that work of the steady state can do (R144 to R146, R151). -/
def HostState.Served (p : HostParams) (h h' : HostState) : Prop := h.RunsOn h' ∨ h.EndsFatally p h'

theorem HostState.RunsOn.refl (h : HostState) : h.RunsOn h := ⟨rfl, rfl, rfl, List.prefix_rfl⟩

theorem HostState.Served.refl (p : HostParams) (h : HostState) : h.Served p h := .inl (.refl h)

/-- Work after work that ran on. -/
theorem HostState.RunsOn.trans_served {p : HostParams} {h h' h'' : HostState} (first : h.RunsOn h')
    (second : h'.Served p h'') : h.Served p h'' := by
  obtain ⟨more, hmore⟩ := first.log
  rcases second with runs | ends
  · exact .inl ⟨runs.session.trans first.session, runs.running.trans first.running,
      runs.bindings.trans first.bindings, first.log.trans runs.log⟩
  · obtain ⟨between, channel, hlog⟩ := ends.log
    exact .inr ⟨ends.session.trans first.session, ends.policy, ends.stopped, ends.workEnded, ends.channels,
      more ++ between, channel, by simp [hlog, ← hmore]⟩

/-- A fatal error ends the work, so a list of pieces of work does no more than its pieces. -/
theorem whileWorking_served {α : Type} {p : HostParams} {work : System → α → System}
    (hwork : ∀ (sys : System) a, sys.host.Served p (work sys a).host) (l : List α) (sys : System) :
    sys.host.Served p (System.whileWorking work l sys).host := by
  refine whileWorking_keeps (P := fun sys' => sys.host.Served p sys'.host) ?_ l (.refl p _)
  intro sys' a hworking hserved
  rcases hserved with runs | ends
  · exact runs.trans_served (hwork sys' a)
  · exact absurd (hworking.symm.trans ends.workEnded) Bool.false_ne_true

/-! ### What the host's actions do -/

theorem logEntry_runsOn (sys : System) (e : LogEntry) : sys.host.RunsOn (sys.logEntry e).host :=
  ⟨rfl, rfl, rfl, List.prefix_append _ _⟩

theorem ioFailure_served (p : HostParams) (channel : Option Nat) (sys : System) :
    sys.host.Served p (System.ioFailure p channel sys).host := by
  unfold System.ioFailure
  cases hp : p.ioError with
  | fatal => exact .inr ⟨rfl, hp, rfl, rfl, rfl, [], channel, by simp⟩
  | perChannel =>
    refine .inl ?_
    cases channel with
    | none => exact ⟨rfl, rfl, rfl, List.prefix_append _ _⟩
    | some id => exact ⟨rfl, rfl, channelBindings_modify_failed _ id, List.prefix_append _ _⟩

/-- A failed write takes the world's answer and does what its handler does (log entry 20). -/
theorem failedWrite_served {p : HostParams} {onFailure : System → System}
    (hfail : ∀ sys : System, sys.host.Served p (onFailure sys).host) (sys : System) :
    sys.host.Served p
      (onFailure { sys with host := { sys.host with writeAnswers := sys.host.writeAnswers.tail } }).host :=
  have htail : sys.host.RunsOn { sys.host with writeAnswers := sys.host.writeAnswers.tail } :=
    ⟨rfl, rfl, rfl, List.prefix_rfl⟩
  htail.trans_served (hfail { sys with host := { sys.host with writeAnswers := sys.host.writeAnswers.tail } })

/-- A write that succeeds changes nothing the statement speaks of. -/
theorem writeSerial_served {p : HostParams} {onFailure : System → System}
    (hfail : ∀ sys : System, sys.host.Served p (onFailure sys).host) (sys : System) (bytes : List Byte) :
    sys.host.Served p (sys.writeSerial bytes onFailure).host := by
  by_cases h : sys.host.writeAnswers.head? = some .failed
  · rw [writeSerial_failed h]
    exact failedWrite_served hfail sys
  · rw [writeSerial_written h]
    exact .inl ⟨rfl, rfl, rfl, List.prefix_rfl⟩

theorem writeEndpoint_served {p : HostParams} {onFailure : System → System}
    (hfail : ∀ sys : System, sys.host.Served p (onFailure sys).host) (sys : System) (id : Nat) (content : List Byte) :
    sys.host.Served p (sys.writeEndpoint id content onFailure).host := by
  by_cases h : sys.host.writeAnswers.head? = some .failed
  · rw [writeEndpoint_failed h]
    exact failedWrite_served hfail sys
  · rw [writeEndpoint_written h]
    exact .inl ⟨rfl, rfl, rfl, List.prefix_rfl⟩

theorem sendFrame_served {p : HostParams} {onFailure : System → System}
    (hfail : ∀ sys : System, sys.host.Served p (onFailure sys).host) (sys : System) (id : Nat) (cr : BitVec 1)
    (t : FrameType) (pf : BitVec 1) (content : List Byte) :
    sys.host.Served p (sys.sendFrame id cr t pf content onFailure).host := by
  obtain ⟨b, -, ⟨w, -, hsend⟩ | ⟨st, -, -, hsend⟩⟩ := sendFrame_cases sys id cr t pf content onFailure
  · rw [hsend]
    exact writeSerial_served hfail { sys with block := b } w
  · rw [hsend]
    exact .inl (logEntry_runsOn { sys with block := b } _)

theorem deliver_served (p : HostParams) (sys : System) (id : Nat) (content : List Byte) :
    sys.host.Served p (sys.deliver p id content).host := by
  unfold System.deliver
  split
  · exact .inl (logEntry_runsOn sys _)
  · split_ifs
    · exact .inl (logEntry_runsOn sys _)
    · exact .inl (logEntry_runsOn sys _)
    · exact writeEndpoint_served (ioFailure_served p (some id)) sys id content

theorem route_served (p : HostParams) (sys : System) (f : Frame) : sys.host.Served p (sys.route p f).host := by
  obtain ⟨b, -, ⟨-, hroute⟩ | ⟨_, -, -, hroute⟩ | ⟨_, -, -, hroute⟩⟩ := route_cases p sys f
  · rw [hroute]
    exact .inl (logEntry_runsOn { sys with block := b } _)
  · rw [hroute]
    exact .refl p _
  · rw [hroute]
    exact deliver_served p { sys with block := b } _ _

theorem ingest_runsOn (sys : System) (bytes : List Byte) : sys.host.RunsOn (sys.ingest bytes).host := by
  obtain ⟨t, -, -, hingest⟩ := ingest_eq sys bytes
  rw [hingest]
  exact ⟨rfl, rfl, rfl, List.prefix_append _ _⟩

theorem inbound_served (p : HostParams) (sys : System) (bytes : List Byte) :
    sys.host.Served p (sys.inbound p bytes).host := by
  obtain ⟨u, fs, -, -, hinbound⟩ := inbound_eq p sys bytes
  rw [hinbound]
  exact (ingest_runsOn sys bytes).trans_served
    (whileWorking_served (route_served p) fs { sys.ingest bytes with block := u })

theorem outbound_served (p : HostParams) (sys : System) (id : Nat) (available : List Byte) :
    sys.host.Served p (sys.outbound p id available).host := by
  have hsend : ∀ (sys' : System) (d : List Byte), sys'.host.Served p
      (sys'.sendFrame id p.crOut .uih p.pfOut d (System.ioFailure p none)).host :=
    fun sys' d => sendFrame_served (ioFailure_served p none) sys' id _ _ _ d
  unfold System.outbound
  split
  · exact .inl (logEntry_runsOn sys _)
  · dsimp only
    split_ifs
    · exact .inl (logEntry_runsOn sys _)
    · exact .inl (logEntry_runsOn sys _)
    · exact hsend sys _
    · cases p.oversize with
      | boundReads => exact .inl (logEntry_runsOn sys _)
      | drop => exact .inl (logEntry_runsOn sys _)
      | split => exact whileWorking_served hsend _ sys

theorem serve_served (p : HostParams) (sys : System) (event : LoopEvent) :
    sys.host.Served p (sys.serve p event).host := by
  cases event with
  | serialReadable bytes => exact inbound_served p sys bytes
  | endpointReadable id available => exact outbound_served p sys id available
  | serialError => exact ioFailure_served p none sys
  | endpointError id => exact ioFailure_served p (some id) sys

/-- An iteration that is not cancelled serves descriptors and does no more (R150). -/
theorem iterate_served (p : HostParams) {sys : System} (hrun : sys.host.running = true)
    (hcancel : sys.host.cancelled = false) (ready : List LoopEvent) :
    sys.host.Served p (sys.iterate p ready).host := by
  have hstart : sys.host.RunsOn { sys.host with workEnded := false } := ⟨rfl, rfl, rfl, List.prefix_rfl⟩
  simpa [System.iterate, hrun, hcancel] using
    hstart.trans_served
      (whileWorking_served (serve_served p) ready { sys with host := { sys.host with workEnded := false } })

/-- Settles O55: an iteration either runs on or ends by a fatal transport error, and which one `running` tells. -/
theorem endpointsStayBoundUntilShutdown : Obligations.EndpointsStayBoundUntilShutdown := by
  unfold Obligations.EndpointsStayBoundUntilShutdown
  intro p sys ready hrun hcancel
  rcases iterate_served p hrun hcancel ready with runs | ends
  · refine ⟨runs.session, fun _ => runs.bindings, fun hstopped => ?_⟩
    exact absurd (hstopped.symm.trans (runs.running.trans hrun)) Bool.false_ne_true
  · refine ⟨ends.session, fun hgoes => ?_, fun _ => ⟨ends.policy, ends.channels, ends.log⟩⟩
    exact absurd (ends.stopped.symm.trans hgoes) Bool.false_ne_true

end Sys2Proof.Machine
end

section
/-! The memory (20_memory.md R21, R22): what each primitive gives inside and outside its precondition, and the order in
which bytes leave the buffer. -/

namespace Sys2Proof.Machine

/-! ### The two primitives -/

/-- Place `k` of a slice of `n` bytes is place `i + k` of the sequence it is cut from. -/
theorem getElem?_slice (s : List Byte) (i : Nat) {k n : Nat} (hk : k < n) : (slice s i (i + n))[k]? = s[i + k]? := by
  have hlt : k < i + n - i := by omega
  rw [slice, List.getElem?_take_of_lt hlt, List.getElem?_drop]

theorem memRead_of_le {s : State} {i n : Nat} (h : i + n ≤ s.fb.length) : s.memRead i n = some (slice s.fb i (i + n)) :=
  if_pos h

theorem memRead_of_lt {s : State} {i n : Nat} (h : s.fb.length < i + n) : s.memRead i n = none :=
  if_neg (Nat.not_le_of_lt h)

theorem memWrite_of_le {s : State} {bytes : List Byte} (h : s.fb.length + bytes.length ≤ s.config.fbCap) :
    s.memWrite bytes = some { s with fb := s.fb ++ bytes } :=
  if_pos h

theorem memWrite_of_lt {s : State} {bytes : List Byte} (h : s.config.fbCap < s.fb.length + bytes.length) :
    s.memWrite bytes = none :=
  if_neg (Nat.not_le_of_lt h)

/-- Settles O17: each primitive on both sides of its precondition; what a read gives is a slice of the buffer. -/
theorem memoryPrimitives : Obligations.MemoryPrimitives := by
  unfold Obligations.MemoryPrimitives
  refine ⟨fun s i n h => ?_, fun _ _ _ => memRead_of_lt, fun _ _ => memWrite_of_le, fun _ _ => memWrite_of_lt⟩
  exact ⟨slice s.fb i (i + n), memRead_of_le h, slice_length s.fb i n h, fun _ hk => getElem?_slice s.fb i hk⟩

/-! ### First in, first out -/

/-- What a removal from the head leaves is the old buffer without as many bytes as were removed. -/
theorem exists_drop_of_suffix {new old : Memory} (h : new <:+ old) : ∃ k, k ≤ old.length ∧ new = old.drop k :=
  ⟨old.length - new.length, Nat.sub_le _ _, List.suffix_iff_eq_drop.1 h⟩

/-- Settles O18: the two things an instruction can do to the buffer, by `exec_next_cases`. -/
theorem bytesLeaveInTheOrderTheyEntered : Obligations.BytesLeaveInTheOrderTheyEntered := by
  unfold Obligations.BytesLeaveInTheOrderTheyEntered
  intro i s t h
  obtain ⟨-, -, hremoved | ⟨bytes, hi, -, happended⟩⟩ := exec_next_cases h
  · exact .inl (exists_drop_of_suffix hremoved)
  · exact .inr ⟨bytes, hi, happended⟩

end Sys2Proof.Machine
end

section
/-! Requests as bytes (30_encoding.md section 7): each reader of an operand accepts exactly what its writer writes, and
from this the same of whole requests, in both encoding spaces. -/

namespace Sys2Proof

/-! ### One reader after another -/

section
variable {α β : Type} (f : α → Except DecodeError β)

@[simp] theorem ok_bind (a : α) : (.ok a : Except DecodeError α) >>= f = f a := rfl

@[simp] theorem error_bind (e : DecodeError) : (.error e : Except DecodeError α) >>= f = .error e := rfl

theorem bind_eq_ok_iff (x : Except DecodeError α) (b : β) : x >>= f = .ok b ↔ ∃ a, x = .ok a ∧ f a = .ok b := by
  cases x <;> simp
end

/-! ### Operands -/

theorem takeByte_eq_ok_iff {ops rest : List Byte} {b : Byte} : takeByte ops = .ok (b, rest) ↔ ops = b :: rest :=
  ⟨takeByte_eq_ok, fun h => h ▸ takeByte_cons b rest⟩

theorem takeBit_eq_ok_iff {ops rest : List Byte} {v : BitVec 1} :
    takeBit ops = .ok (v, rest) ↔ ops = bitByte v :: rest :=
  ⟨takeBit_eq_ok, fun h => h ▸ takeBit_bitByte v rest⟩

theorem takeDlci_eq_ok_iff {ops rest : List Byte} {d : BitVec 6} :
    takeDlci ops = .ok (d, rest) ↔ ops = dlciByte d :: rest :=
  ⟨takeDlci_eq_ok, fun h => h ▸ takeDlci_dlciByte d rest⟩

theorem takeFrameType_eq_ok_iff {ops rest : List Byte} {t : FrameType} :
    takeFrameType ops = .ok (t, rest) ↔ ops = typeByte t :: rest :=
  ⟨takeFrameType_eq_ok, fun h => h ▸ takeFrameType_typeByte t rest⟩

theorem takeNat_eq_ok_iff {ops rest : List Byte} {n : Nat} :
    takeNat ops = .ok (n, rest) ↔ ops = natBytes n ++ rest :=
  ⟨takeNat_eq_ok, fun h => h ▸ takeNat_natBytes n rest⟩

theorem takeBytes_eq_ok_iff {ops s rest : List Byte} : takeBytes ops = .ok (s, rest) ↔ ops = seqBytes s ++ rest :=
  ⟨takeBytes_eq_ok, fun h => h ▸ takeBytes_seqBytes s rest⟩

theorem takeFrame_eq_ok_iff {ops rest : List Byte} {f : Frame} :
    takeFrame ops = .ok (f, rest) ↔ ops = f.address :: f.control :: (seqBytes f.content ++ rest) :=
  ⟨takeFrame_eq_ok, fun h => h ▸ takeFrame_seqBytes f rest⟩

/-! ### Operations (R56) -/

/-- What is read behind a select code is an operation of that code, and the bytes read are its operands. -/
theorem decodeOperands_eq_ok {select : Nat} {ops rest : List Byte} {i : Instr}
    (h : decodeOperands select ops = .ok (i, rest)) :
    portOf i = .operation ∧ BitVec.ofNat 8 select :: ops = encode i ++ rest := by
  unfold decodeOperands at h
  split at h <;>
    simp only [bind_eq_ok_iff, takeByte_eq_ok_iff, takeBit_eq_ok_iff, takeDlci_eq_ok_iff, takeFrameType_eq_ok_iff,
      takeNat_eq_ok_iff, takeBytes_eq_ok_iff, takeFrame_eq_ok_iff, Prod.exists, Except.ok.injEq, Prod.mk.injEq,
      reduceCtorEq] at h
  case h_1 =>
    obtain ⟨dlci, _, rfl, cr, _, rfl, ea, _, rfl, rfl, rfl⟩ := h
    exact ⟨rfl, rfl⟩
  -- one byte
  case h_2 | h_3 | h_4 | h_9 | h_10 | h_14 =>
    obtain ⟨a, _, rfl, rfl, rfl⟩ := h
    exact ⟨rfl, rfl⟩
  -- two operands of one byte each
  case h_5 | h_6 | h_7 | h_8 | h_11 | h_12 =>
    obtain ⟨a, _, rfl, v, _, rfl, rfl, rfl⟩ := h
    exact ⟨rfl, rfl⟩
  -- a number or a byte sequence
  case h_13 | h_18 | h_19 =>
    obtain ⟨s, _, rfl, rfl, rfl⟩ := h
    exact ⟨rfl, rfl⟩
  case h_15 =>
    obtain ⟨address, _, rfl, control, _, rfl, li, _, rfl, content, _, rfl, rfl, rfl⟩ := h
    exact ⟨rfl, rfl⟩
  case h_16 =>
    obtain ⟨address, _, rfl, control, _, rfl, li, _, rfl, content, _, rfl, received, _, rfl, rfl, rfl⟩ := h
    exact ⟨rfl, by simp [encode]⟩
  case h_17 =>
    obtain ⟨f, _, rfl, rfl, rfl⟩ := h
    exact ⟨rfl, rfl⟩
  -- no operand
  case h_20 | h_21 =>
    obtain ⟨rfl, rfl⟩ := h
    exact ⟨rfl, rfl⟩

/-- An operation is read back from the head of any bytes that begin with its encoding. -/
theorem decodeOperation_encode_append {i : Instr} (h : portOf i = .operation) (rest : List Byte) :
    decodeOperation (encode i ++ rest) = .ok (i, rest) := by
  cases i with
  | sabm | ua | dm | disc | uih | ui => cases h
  | frameEncode f => simp [encode, decodeOperation, decodeOperands, takeFrame_seqBytes]
  | _ => simp [encode, decodeOperation, decodeOperands]

/-- The reader of operations accepts exactly what `encode` writes of them. -/
theorem decodeOperation_eq_ok_iff {bytes rest : List Byte} {i : Instr} :
    decodeOperation bytes = .ok (i, rest) ↔ portOf i = .operation ∧ bytes = encode i ++ rest := by
  refine ⟨fun h => ?_, fun ⟨hport, hbytes⟩ => hbytes ▸ decodeOperation_encode_append hport rest⟩
  cases bytes with
  | nil => cases h
  | cons select ops =>
    simp only [decodeOperation] at h
    split at h
    · simpa using decodeOperands_eq_ok h
    · cases h

/-! ### Control bytes (R40, R41) -/

/-- The frame-type row of a type and a PF bit (R42 to R47). -/
def controlRow (t : FrameType) (pf : BitVec 1) : Instr :=
  match t with
  | .sabm => .sabm pf
  | .ua => .ua pf
  | .dm => .dm pf
  | .disc => .disc pf
  | .uih => .uih pf
  | .ui => .ui pf

@[simp] theorem encode_controlRow (t : FrameType) (pf : BitVec 1) : encode (controlRow t pf) = [packControl t pf] := by
  cases t <;> rfl

@[simp] theorem portOf_controlRow (t : FrameType) (pf : BitVec 1) : portOf (controlRow t pf) = .control := by
  cases t <;> rfl

/-- The instructions of the control port are the six frame-type rows. -/
theorem exists_controlRow {i : Instr} (h : portOf i = .control) : ∃ t pf, i = controlRow t pf := by
  cases i with
  | sabm pf => exact ⟨.sabm, pf, rfl⟩
  | ua pf => exact ⟨.ua, pf, rfl⟩
  | dm pf => exact ⟨.dm, pf, rfl⟩
  | disc pf => exact ⟨.disc, pf, rfl⟩
  | uih pf => exact ⟨.uih, pf, rfl⟩
  | ui pf => exact ⟨.ui, pf, rfl⟩
  | _ => cases h

theorem decodeControl_of_typed {c : Byte} {t : FrameType} (h : frameTypeOf c = some t) :
    decodeControl c = .ok (controlRow t (pfBit c)) := by
  cases t <;> simp [decodeControl, controlRow, h]

theorem decodeControl_of_untyped {c : Byte} (h : frameTypeOf c = none) :
    decodeControl c = .error (.unsupportedFrameType c) := by
  simp [decodeControl, h]

/-- The reader of control bytes accepts exactly what `encode` writes of the frame-type rows. -/
theorem decodeControl_eq_ok_iff {c : Byte} {i : Instr} :
    decodeControl c = .ok i ↔ portOf i = .control ∧ encode i = [c] := by
  constructor
  · intro h
    cases ht : frameTypeOf c with
    | none => simp [decodeControl_of_untyped ht] at h
    | some t =>
      rw [decodeControl_of_typed ht] at h
      cases h
      exact ⟨portOf_controlRow t _, by rw [encode_controlRow, packControl_of_frameTypeOf ht]⟩
  · rintro ⟨hport, hbytes⟩
    obtain ⟨t, pf, rfl⟩ := exists_controlRow hport
    obtain rfl : packControl t pf = c := by simpa using hbytes
    rw [decodeControl_of_typed (frameTypeOf_packControl t pf), pfBit_packControl]

/-! ### Whole requests -/

theorem decode_operation_eq_ok_iff {bytes : List Byte} {i : Instr} :
    decode .operation bytes = .ok i ↔ decodeOperation bytes = .ok (i, []) := by
  rcases hd : decodeOperation bytes with e | ⟨j, _ | ⟨b, rest⟩⟩
  · simp [decode, hd]
  · simp [decode, hd]
  · simp [decode, hd]

/-- Why the operands behind a select code are not read is why the request does not decode. -/
theorem decode_of_decodeOperands_error {select : Byte} {ops : List Byte} {e : DecodeError} (hs : select.toNat < 32)
    (h : decodeOperands select.toNat ops = .error e) : decode .operation (select :: ops) = .error e := by
  simp [decode, decodeOperation, hs, h]

theorem decode_control_eq_ok_iff {bytes : List Byte} {i : Instr} :
    decode .control bytes = .ok i ↔ ∃ c, bytes = [c] ∧ decodeControl c = .ok i := by
  match bytes with
  | [] => simp [decode]
  | [c] => simp [decode]
  | _ :: _ :: _ => simp [decode]

/-- `decode` accepts at a port exactly what `encode` writes of that port's instructions. -/
theorem decode_eq_ok_iff {port : Port} {bytes : List Byte} {i : Instr} :
    decode port bytes = .ok i ↔ portOf i = port ∧ encode i = bytes := by
  cases port with
  | operation => rw [decode_operation_eq_ok_iff, decodeOperation_eq_ok_iff, List.append_nil, eq_comm (a := bytes)]
  | control =>
    simp only [decode_control_eq_ok_iff, decodeControl_eq_ok_iff]
    constructor
    · rintro ⟨c, rfl, h⟩
      exact h
    · rintro ⟨hport, rfl⟩
      obtain ⟨t, pf, rfl⟩ := exists_controlRow hport
      exact ⟨_, encode_controlRow t pf, hport, encode_controlRow t pf⟩

/-- Settles O1: what `encode` writes, `decode` accepts. -/
theorem decodeEncodeRoundTrip : Obligations.DecodeEncodeRoundTrip := by
  unfold Obligations.DecodeEncodeRoundTrip
  intro i _
  exact decode_eq_ok_iff.2 ⟨rfl, rfl⟩

/-- Settles O2: `decode` accepts nothing else. -/
theorem decodedBytesAreTheEncoding : Obligations.DecodedBytesAreTheEncoding := by
  unfold Obligations.DecodedBytesAreTheEncoding
  intro port bytes i h
  exact decode_eq_ok_iff.1 h

end Sys2Proof
end

section
/-! What the port answers to bytes that are no instruction (30_encoding.md R48, R56, R57; 60_exceptions.md R173), and the
operands that are refused (40_field_ops.md section 1). -/

namespace Sys2Proof.Machine

/-! ### The port's answer, from why the bytes do not decode -/

theorem portRaises_illegalOp {port : Port} {bytes : List Byte} (h : decode port bytes = .error .illegalOp) :
    PortRaises port bytes .illegalOp := by
  intro s rest hp
  rw [step_issue hp, h]
  rfl

theorem portRaises_unsupportedFrameType {port : Port} {bytes : List Byte} {c : Byte}
    (h : decode port bytes = .error (.unsupportedFrameType c)) : PortRaises port bytes (.unsupportedFrameType c) := by
  intro s rest hp
  rw [step_issue hp, h]
  rfl

/-! ### Codes -/

/-- Settles O3: each word is what `encode` writes of the instruction it stands for. -/
theorem specWordsDecode : Obligations.SpecWordsDecode := by
  unfold Obligations.SpecWordsDecode
  simp only [decode_eq_ok_iff]
  decide

/-- Settles O4: no arm of `decodeOperands` is for a reserved code, and none of them looks at the operands. -/
theorem reservedSelectCodesAreIllegal : Obligations.ReservedSelectCodesAreIllegal := by
  unfold Obligations.ReservedSelectCodesAreIllegal
  intro code hcode operands
  refine portRaises_illegalOp ?_
  simp only [List.mem_cons, List.not_mem_nil, or_false] at hcode
  rcases hcode with rfl | rfl | rfl | rfl | rfl | rfl | rfl | rfl | rfl | rfl | rfl <;> rfl

/-- The two reserved FrameType codes are illegal before the operand behind them is looked at (log entry 17). -/
theorem takeFrameType_reserved {k : Byte} (h : k ∈ ([6, 7] : List Byte)) (rest : List Byte) :
    takeFrameType (k :: rest) = .error .illegalOp := by
  simp only [List.mem_cons, List.not_mem_nil, or_false] at h
  rcases h with rfl | rfl <;> rfl

/-- Settles O5: the codes 0 to 5 are what `typeByte` writes of the types; 6 and 7 are reserved. -/
theorem frameTypeOperandCodes : Obligations.FrameTypeOperandCodes := by
  unfold Obligations.FrameTypeOperandCodes
  refine ⟨fun p hp c pf => ?_, fun k hk c v => ⟨portRaises_illegalOp ?_, portRaises_illegalOp ?_⟩⟩
  · have hcode : p.1 = typeByte p.2 := by revert p; decide
    rw [decode_eq_ok_iff, decode_eq_ok_iff, hcode]
    exact ⟨⟨rfl, rfl⟩, rfl, rfl⟩
  · exact decode_of_decodeOperands_error (by decide) (by simp [decodeOperands, takeFrameType_reserved hk])
  · exact decode_of_decodeOperands_error (by decide) (by simp [decodeOperands, takeFrameType_reserved hk])

/-- The control bytes that carry a type (R41, R48). -/
theorem frameTypeOf_isSome_iff (c : Byte) : (frameTypeOf c).isSome = true ↔
    c ∈ ([0x2F, 0x3F, 0x63, 0x73, 0x0F, 0x1F, 0x43, 0x53, 0xEF, 0xFF, 0x03, 0x13] : List Byte) := by
  revert c
  decide

/-- Settles O6: a control byte decodes exactly if it carries a type. -/
theorem controlBytesWithAType : Obligations.ControlBytesWithAType := by
  unfold Obligations.ControlBytesWithAType
  intro c
  rw [← frameTypeOf_isSome_iff]
  constructor
  · intro htyped
    obtain ⟨t, ht⟩ := Option.isSome_iff_exists.1 htyped
    have hd : decode .control [c] = .ok (controlRow t (pfBit c)) := decodeControl_of_typed ht
    exact ⟨_, hd, (decode_eq_ok_iff.1 hd).2⟩
  · intro huntyped
    exact portRaises_unsupportedFrameType (decodeControl_of_untyped (by simpa using huntyped))

/-! ### Operands out of range -/

theorem takeBit_wide {v : Byte} (h : v.toNat > 1) (rest : List Byte) : takeBit (v :: rest) = .error .operandOutOfRange :=
  if_neg (Nat.not_le_of_gt h)

theorem takeBit_narrow {v : Byte} (h : v.toNat ≤ 1) (rest : List Byte) : takeBit (v :: rest) = .ok (v.setWidth 1, rest) :=
  if_pos h

theorem takeDlci_wide {v : Byte} (h : v.toNat > 63) (rest : List Byte) :
    takeDlci (v :: rest) = .error .operandOutOfRange :=
  if_neg (Nat.not_le_of_gt h)

theorem takeDlci_narrow {v : Byte} (h : v.toNat ≤ 63) (rest : List Byte) :
    takeDlci (v :: rest) = .ok (v.setWidth 6, rest) :=
  if_pos h

theorem takeFrameType_wide {v : Byte} (h : v.toNat > 7) (rest : List Byte) :
    takeFrameType (v :: rest) = .error .operandOutOfRange := by
  simp only [takeFrameType]
  split
  case h_9 => rfl
  all_goals omega

/-- A code up to 5 is that of a type. -/
theorem exists_typeByte {v : Byte} (h : v.toNat < 6) : ∃ t, v = typeByte t := by
  have hall : ∀ b : Byte, b.toNat < 6 → b ∈ [FrameType.sabm, .ua, .dm, .disc, .uih, .ui].map typeByte := by decide
  obtain ⟨t, -, ht⟩ := List.mem_map.1 (hall v h)
  exact ⟨t, ht.symm⟩

/-- An operation whose operands are read up to one that is out of range is refused. -/
theorem step_of_decodeOperands_outOfRange {s : State} {select : Byte} {ops : List Byte} {rest : List Request}
    (hp : s.pending = .issue .operation (select :: ops) :: rest) (hs : select.toNat < 32)
    (h : decodeOperands select.toNat ops = .error .operandOutOfRange) :
    step s = .refused (.malformedRequest .operandOutOfRange) := by
  rw [step_issue hp, decode_of_decodeOperands_error hs h]
  rfl

/-- Settles O7: the operands before the first one out of range are read, and that one refuses the request. -/
theorem wideOperandsAreRefused : Obligations.WideOperandsAreRefused := by
  unfold Obligations.WideOperandsAreRefused
  intro s rest a v w
  refine ⟨fun hv code hcode hp => ?bit,
    fun hv hp => step_of_decodeOperands_outOfRange hp (by decide) ?dlci,
    fun h hp => step_of_decodeOperands_outOfRange hp (by decide) ?address,
    fun h hp => step_of_decodeOperands_outOfRange hp (by decide) ?control,
    fun hv hp => step_of_decodeOperands_outOfRange hp (by decide) ?type⟩
  case bit =>
    simp only [List.mem_cons, List.not_mem_nil, or_false] at hcode
    rcases hcode with rfl | rfl | rfl <;>
      exact step_of_decodeOperands_outOfRange hp (by decide) (by simp [decodeOperands, takeBit_wide hv])
  case dlci => simp [decodeOperands, takeDlci_wide hv]
  case address =>
    by_cases ha : a.toNat > 63
    · simp [decodeOperands, takeDlci_wide ha]
    have hd := takeDlci_narrow (Nat.le_of_not_gt ha)
    by_cases hv : v.toNat > 1
    · simp [decodeOperands, hd, takeBit_wide hv]
    have hb := takeBit_narrow (Nat.le_of_not_gt hv)
    have hw : w.toNat > 1 := by omega
    simp [decodeOperands, hd, hb, takeBit_wide hw]
  case control =>
    rcases h with ha | ⟨ha, hv⟩
    · simp [decodeOperands, takeFrameType_wide ha]
    · obtain ⟨t, rfl⟩ := exists_typeByte ha
      simp [decodeOperands, takeBit_wide hv]
  case type => simp [decodeOperands, takeFrameType_wide hv]

end Sys2Proof.Machine
end

section
/-! Control bytes with and without a type (30_encoding.md section 3): what the block makes of them. -/

namespace Sys2Proof.Machine

/-! ### The six frame-type rows (R40, R41, R52) -/

theorem packControl_toNat (t : FrameType) (pf : BitVec 1) :
    (packControl t pf).toNat = t.controlCode.toNat + pf.toNat * 16 := by
  revert pf
  cases t <;> decide

theorem coverageOf_packControl (t : FrameType) (pf : BitVec 1) :
    coverageOf (packControl t pf) = if t = .ui then .headerAndContent else .header := by
  revert pf
  cases t <;> decide

/-- A frame-type row answers with its control byte, its type, its PF bit and its coverage. -/
theorem returns_controlRow (t : FrameType) (pf : BitVec 1) (s : State) :
    Returns (controlRow t pf) s
      (.controlInfo (packControl t pf) t pf (if t = .ui then .headerAndContent else .header)) := by
  have hrow : (controlRow t pf).TouchesBuffer = false := by cases t <;> rfl
  have hresult : pureResult (controlRow t pf) = describeControl (packControl t pf) := by cases t <;> rfl
  rw [returns_iff hrow _ _ (by simp), hresult, ← coverageOf_packControl t pf]
  simp [describeControl, controlType, Except.map]

/-- Settles O30: `returns_controlRow` at each of the six types. -/
theorem frameTypeRowsAnswer : Obligations.FrameTypeRowsAnswer := by
  unfold Obligations.FrameTypeRowsAnswer
  intro pf s
  exact ⟨_, _, _, _, _, _,
    returns_controlRow .sabm pf s, packControl_toNat .sabm pf,
    returns_controlRow .ua pf s, packControl_toNat .ua pf,
    returns_controlRow .dm pf s, packControl_toNat .dm pf,
    returns_controlRow .disc pf s, packControl_toNat .disc pf,
    returns_controlRow .uih pf s, packControl_toNat .uih pf,
    returns_controlRow .ui pf s, packControl_toNat .ui pf⟩

/-! ### Control bytes without a type (R48, R108) -/

theorem typeCode_packControl (t : FrameType) (pf : BitVec 1) : typeCode (packControl t pf) = t.controlCode := by
  revert pf
  cases t <;> decide

theorem frameTypeOf_untyped {c : Byte}
    (h : ∀ code ∈ ([0x2F, 0x63, 0x0F, 0x43, 0xEF, 0x03] : List Byte), c &&& 0xEF ≠ code) : frameTypeOf c = none := by
  cases ht : frameTypeOf c with
  | none => rfl
  | some t =>
    have hcode : typeCode c = t.controlCode := by rw [← packControl_of_frameTypeOf ht, typeCode_packControl]
    exact absurd hcode (h _ (by cases t <;> decide))

/-- Settles O31: the type is looked at by CTRL.GET_TYPE and by the choice of the coverage only; the codec carries the
control byte as it is. -/
theorem untypedControlByteStillDecodes : Obligations.UntypedControlByteStillDecodes := by
  unfold Obligations.UntypedControlByteStillDecodes
  intro f s huntyped hlen
  obtain ⟨wire, hwire⟩ := encodeFrame_of_le (f := f) hlen
  obtain ⟨li, hli, -⟩ := encodeFrame_eq_ok hwire
  have hother : f.control &&& 0xEF ≠ 0x03 := huntyped 0x03 (by decide)
  have hdecode : decodeFrame wire = .ok ⟨f, wire.length, 0⟩ := by
    simpa using decodeFrame_encodeFrame (g := []) hwire (by simp) []
  refine ⟨(raises_iff rfl s _ (by simp)).2 ?_, li, wire, (returns_iff rfl s _ (by simp)).2 ?_,
    (returns_iff rfl s _ (by simp)).2 ?_, (returns_iff rfl s _ (by simp)).2 ?_, (returns_iff rfl s _ (by simp)).2 ?_⟩
  · simp [pureResult, controlType, frameTypeOf_untyped huntyped, Except.map]
  · simp [pureResult, hli, Except.map]
  · simp [pureResult, fcsCompute, coveredBytes_other hother]
  · simp [pureResult, hwire, Except.map]
  · simp [pureResult, hdecode, Except.map]

end Sys2Proof.Machine
end

section
/-! The field operations (40_field_ops.md): what each of them answers, as the pure function of its operands; the bits
and the numbers these functions give; and the laws between them. -/

namespace Sys2Proof.Machine

/-! ### What each operation answers (R76) -/

/-- An operation that cannot fail returns its result and no other. -/
theorem returns_iff_of_ok {i : Instr} {r₀ r : Result} (hi : i.TouchesBuffer = false) (h : pureResult i = .ok r₀)
    (s : State) (hr : r ≠ .none) : Returns i s r ↔ r₀ = r := by
  simp [returns_iff hi s r hr, h]

section
variable (s : State) (a b c : Byte) (v w : BitVec 1) (d : BitVec 6) (t : FrameType)

@[simp] theorem returns_addrPack_iff : Returns (.addrPack d v w) s (.byte b) ↔ packAddress d v w = b := by
  rw [returns_iff_of_ok rfl rfl s (by simp), Result.byte.injEq]

@[simp] theorem returns_addrGetEa_iff : Returns (.addrGetEa a) s (.bit v) ↔ addressEa a = v := by
  rw [returns_iff_of_ok rfl rfl s (by simp), Result.bit.injEq]

@[simp] theorem returns_addrGetCr_iff : Returns (.addrGetCr a) s (.bit v) ↔ addressCr a = v := by
  rw [returns_iff_of_ok rfl rfl s (by simp), Result.bit.injEq]

@[simp] theorem returns_addrGetDlci_iff : Returns (.addrGetDlci a) s (.dlci d) ↔ addressDlci a = d := by
  rw [returns_iff_of_ok rfl rfl s (by simp), Result.dlci.injEq]

@[simp] theorem returns_addrSetEa_iff : Returns (.addrSetEa a v) s (.byte b) ↔ withEa a v = b := by
  rw [returns_iff_of_ok rfl rfl s (by simp), Result.byte.injEq]

@[simp] theorem returns_addrSetCr_iff : Returns (.addrSetCr a v) s (.byte b) ↔ withCr a v = b := by
  rw [returns_iff_of_ok rfl rfl s (by simp), Result.byte.injEq]

@[simp] theorem returns_addrSetDlci_iff : Returns (.addrSetDlci a d) s (.byte b) ↔ withDlci a d = b := by
  rw [returns_iff_of_ok rfl rfl s (by simp), Result.byte.injEq]

@[simp] theorem returns_ctrlPack_iff : Returns (.ctrlPack t v) s (.byte b) ↔ packControl t v = b := by
  rw [returns_iff_of_ok rfl rfl s (by simp), Result.byte.injEq]

@[simp] theorem returns_ctrlGetPf_iff : Returns (.ctrlGetPf c) s (.bit v) ↔ pfBit c = v := by
  rw [returns_iff_of_ok rfl rfl s (by simp), Result.bit.injEq]

@[simp] theorem returns_ctrlSetPf_iff : Returns (.ctrlSetPf c v) s (.byte b) ↔ withPf c v = b := by
  rw [returns_iff_of_ok rfl rfl s (by simp), Result.byte.injEq]

@[simp] theorem returns_ctrlSetType_iff : Returns (.ctrlSetType c t) s (.byte b) ↔ withType c t = b := by
  rw [returns_iff_of_ok rfl rfl s (by simp), Result.byte.injEq]

@[simp] theorem returns_ctrlGetType_iff :
    Returns (.ctrlGetType c) s (.frameType t) ↔ frameTypeOf c = some t := by
  rw [returns_iff rfl s _ (by simp)]
  cases h : frameTypeOf c <;> simp [pureResult, controlType, h, Except.map]

@[simp] theorem raises_ctrlGetType_iff :
    Raises (.ctrlGetType c) s (.unsupportedFrameType c) ↔ frameTypeOf c = none := by
  rw [raises_iff rfl s _ (by simp)]
  cases h : frameTypeOf c <;> simp [pureResult, controlType, h, Except.map]

@[simp] theorem returns_lenPack_iff (len : Nat) : Returns (.lenPack len) s (.byte b) ↔ packLength len = .ok b := by
  rw [returns_iff rfl s _ (by simp)]
  cases h : packLength len <;> simp [pureResult, h, Except.map]

@[simp] theorem raises_lenPack_iff (len : Nat) :
    Raises (.lenPack len) s (.lengthOverflow len) ↔ packLength len = .error (.lengthOverflow len) := by
  rw [raises_iff rfl s _ (by simp)]
  cases h : packLength len <;> simp [pureResult, h, Except.map]

@[simp] theorem returns_lenUnpack_iff (n : BitVec 7) :
    Returns (.lenUnpack b) s (.length n) ↔ unpackLength b = .ok n := by
  rw [returns_iff rfl s _ (by simp)]
  cases h : unpackLength b <;> simp [pureResult, h, Except.map]

@[simp] theorem raises_lenUnpack_iff :
    Raises (.lenUnpack b) s (.unsupportedLength b) ↔ unpackLength b = .error (.unsupportedLength b) := by
  rw [raises_iff rfl s _ (by simp)]
  cases h : unpackLength b <;> simp [pureResult, h, Except.map]

end

/-! ### Replacing one bit of a byte (R64, R65, R70) -/

/-- What ADDR.SET_EA, ADDR.SET_CR and CTRL.SET_PF have in common: mask bit `n` off and put the operand in its place. -/
def replaceBit (a : Byte) (n : Nat) (v : BitVec 1) : Byte := (a &&& ~~~(1#8 <<< n)) ||| (v.setWidth 8 <<< n)

theorem withEa_eq_replaceBit (a : Byte) (v : BitVec 1) : withEa a v = replaceBit a 0 v := by simp [withEa, replaceBit]

theorem withCr_eq_replaceBit (a : Byte) (v : BitVec 1) : withCr a v = replaceBit a 1 v := rfl

theorem withPf_eq_replaceBit (c : Byte) (v : BitVec 1) : withPf c v = replaceBit c 4 v := rfl

theorem getLsbD_replaceBit_same (a : Byte) {n : Nat} (hn : n < 8) (v : BitVec 1) :
    (replaceBit a n v).getLsbD n = v.getLsbD 0 := by
  simp [replaceBit, hn]

theorem getLsbD_replaceBit_other (a : Byte) {n k : Nat} (h : k ≠ n) (v : BitVec 1) :
    (replaceBit a n v).getLsbD k = a.getLsbD k := by
  have hwidth : a.getLsbD k = true → k < 8 := BitVec.lt_of_getLsbD
  have hvalue : k < n ∨ v.getLsbD (k - n) = false :=
    (Nat.lt_or_gt_of_ne h).imp_right fun hgt => BitVec.getLsbD_of_ge _ _ (by omega)
  grind [replaceBit]

/-! ### The address byte: EA bit 0, CR bit 1, DLCI bits 7:2 (R37, R60 to R66) -/

section
variable (a : Byte) (d : BitVec 6) (v w : BitVec 1)

@[simp] theorem packAddress_bit_zero : (packAddress d v w)[0] = w[0] := by simp [packAddress]

@[simp] theorem packAddress_bit_one : (packAddress d v w)[1] = v[0] := by simp [packAddress]

@[simp] theorem packAddress_bit_add_two (k : Nat) : (packAddress d v w).getLsbD (k + 2) = d.getLsbD k := by
  have hwidth : d.getLsbD k = true → k < 6 := BitVec.lt_of_getLsbD
  grind [packAddress]

@[simp] theorem addressEa_bit : (addressEa a)[0] = a[0] := by simp [addressEa]

@[simp] theorem addressCr_bit : (addressCr a)[0] = a[1] := by simp [addressCr]

@[simp] theorem addressDlci_bit (k : Nat) : (addressDlci a).getLsbD k = a.getLsbD (k + 2) := by
  have hwidth : a.getLsbD (k + 2) = true → k + 2 < 8 := BitVec.lt_of_getLsbD
  grind [addressDlci]

/-- Two bytes are equal if bit 0, bit 1 and bits 7:2 are. -/
theorem address_ext {a b : Byte} (h0 : a[0] = b[0]) (h1 : a[1] = b[1])
    (h2 : ∀ k, a.getLsbD (k + 2) = b.getLsbD (k + 2)) : a = b := by
  refine BitVec.eq_of_getLsbD_eq fun k _ => ?_
  match k with
  | 0 => exact h0
  | 1 => exact h1
  | k + 2 => exact h2 k

/-- A 1-bit operand is its bit 0. -/
theorem bit_ext {v w : BitVec 1} (h : v[0] = w[0]) : v = w := by
  revert v w
  decide

/-- Packing the fields of a byte gives the byte back (R75). -/
@[simp] theorem packAddress_fields : packAddress (addressDlci a) (addressCr a) (addressEa a) = a :=
  address_ext (by simp) (by simp) (by simp)

@[simp] theorem addressEa_packAddress : addressEa (packAddress d v w) = w := bit_ext (by simp)

@[simp] theorem addressCr_packAddress : addressCr (packAddress d v w) = v := bit_ext (by simp)

@[simp] theorem addressDlci_packAddress : addressDlci (packAddress d v w) = d :=
  BitVec.eq_of_getLsbD_eq fun k _ => by simp

/-! A setter packs its operand with the fields it does not name. -/

theorem withEa_eq : withEa a v = packAddress (addressDlci a) (addressCr a) v := by
  refine address_ext (by simp [withEa]) (by simp [withEa]) fun k => ?_
  rw [withEa_eq_replaceBit, getLsbD_replaceBit_other a (by omega) v]
  simp

theorem withCr_eq : withCr a v = packAddress (addressDlci a) v (addressEa a) := by
  refine address_ext (by simp [withCr]) (by simp [withCr]) fun k => ?_
  rw [withCr_eq_replaceBit, getLsbD_replaceBit_other a (by omega) v]
  simp

theorem withDlci_eq : withDlci a d = packAddress d (addressCr a) (addressEa a) := by
  refine address_ext (by simp [withDlci]) (by simp [withDlci]) fun k => ?_
  have hmask : (3#8).getLsbD (k + 2) = false := by simp [BitVec.getLsbD, Nat.testBit_succ]
  have hwidth : d.getLsbD k = true → k < 6 := BitVec.lt_of_getLsbD
  rw [packAddress_bit_add_two]
  grind [withDlci]

/-! The fields as numbers. -/

theorem addressEa_toNat : (addressEa a).toNat = a.toNat % 2 := by
  simp [addressEa]

theorem addressCr_toNat : (addressCr a).toNat = a.toNat / 2 % 2 := by
  simp [addressCr, Nat.shiftRight_eq_div_pow]

theorem addressDlci_toNat : (addressDlci a).toNat = a.toNat / 4 := by
  rw [addressDlci, BitVec.extractLsb'_toNat, Nat.shiftRight_eq_div_pow]
  omega

theorem packAddress_toNat : (packAddress d v w).toNat = d.toNat * 4 + v.toNat * 2 + w.toNat := by
  have hea := addressEa_toNat (packAddress d v w)
  have hcr := addressCr_toNat (packAddress d v w)
  have hdlci := addressDlci_toNat (packAddress d v w)
  rw [addressEa_packAddress] at hea
  rw [addressCr_packAddress] at hcr
  rw [addressDlci_packAddress] at hdlci
  omega

end

/-! ### The control byte: PF bit 4, type code in the other bits (R40, R67 to R71) -/

section
variable (c : Byte) (v : BitVec 1) (t : FrameType)

theorem pfBit_toNat : (pfBit c).toNat = c.toNat / 16 % 2 := by
  simp [pfBit, Nat.shiftRight_eq_div_pow]

@[simp] theorem pfBit_withPf : pfBit (withPf c v) = v :=
  bit_ext (by simp [pfBit, withPf])

/-- The type is in the bits that CTRL.SET_PF keeps. -/
theorem typeCode_withPf : typeCode (withPf c v) = typeCode c := by
  have hv : v.setWidth 8 <<< 4 &&& 0xEF#8 = 0#8 := by
    revert v
    decide
  simp [typeCode, withPf, BitVec.and_or_distrib_right, BitVec.and_assoc, hv]

@[simp] theorem frameTypeOf_withPf : frameTypeOf (withPf c v) = frameTypeOf c := by
  simp only [frameTypeOf, typeCode_withPf]

/-- CTRL.SET_TYPE packs its operand with the PF bit of the byte. -/
theorem withType_eq : withType c t = packControl t (pfBit c) := by
  have hpf : c &&& 0x10#8 = (pfBit c).setWidth 8 <<< 4 := by
    revert c
    decide
  rw [withType, packControl, hpf]

/-- The six rows of the table of type codes, as the statements write them. -/
theorem controlCode_of_row {p : FrameType × Nat}
    (h : p ∈ ([(.sabm, 0x2F), (.ua, 0x63), (.dm, 0x0F), (.disc, 0x43), (.uih, 0xEF), (.ui, 0x03)] :
      List (FrameType × Nat))) : p.1.controlCode.toNat = p.2 := by
  revert p
  decide

end

/-! ### The length indicator (R49, R72, R73) -/

theorem exists_packLength {len : Nat} (h : len ≤ MAX_LEN) :
    ∃ b : Byte, packLength len = .ok b ∧ b.toNat = 2 * len + 1 := by
  refine ⟨_, packLength_of_le h, ?_⟩
  have hbits : len <<< 1 ||| 1 = 2 * len + 1 := by
    rw [← Nat.shiftLeft_add_eq_or_of_lt (by decide), Nat.shiftLeft_eq]
    omega
  have hmax : MAX_LEN = 127 := rfl
  rw [hbits, BitVec.toNat_ofNat, Nat.mod_eq_of_lt (by omega)]

theorem unpackLength_of_odd {b : Byte} (h : b.toNat % 2 = 1) :
    ∃ n : BitVec 7, unpackLength b = .ok n ∧ n.toNat = b.toNat / 2 := by
  refine ⟨b.extractLsb' 1 7, ?_, ?_⟩
  · simp [unpackLength, BitVec.getLsbD, Nat.testBit_zero, h]
  · rw [BitVec.extractLsb'_toNat, Nat.shiftRight_eq_div_pow]
    omega

theorem unpackLength_of_even {b : Byte} (h : b.toNat % 2 = 0) : unpackLength b = .error (.unsupportedLength b) := by
  simp [unpackLength, BitVec.getLsbD, Nat.testBit_zero, h]

/-! ### The laws between the operations (R75) -/

/-- Settles O29: what the operations return are the pure functions, and each law is one of those. -/
theorem fieldOperationLaws : Obligations.FieldOperationLaws := by
  unfold Obligations.FieldOperationLaws
  refine ⟨?_, ?_, ?_, ?_, ?_, ?_, ?_, ?_, ?_, ?_, ?_⟩
  -- the address byte: its fields determine it, and packing keeps each of them
  · simp [packAddress_fields]
  · simp [addressDlci_packAddress, addressCr_packAddress, addressEa_packAddress]
  -- its setters, each a packing of its operand with the other fields
  · simp [withEa_eq]
  · simp [withCr_eq]
  · simp [withDlci_eq]
  -- the control byte: packing the type and PF, and reading them, are inverse
  · simp [frameTypeOf_packControl, pfBit_packControl]
  · intro c t s htype
    rw [returns_ctrlGetType_iff] at htype
    simp [packControl_of_frameTypeOf htype]
  -- its setters: one keeps the type or the lack of one, the other keeps PF
  · simp [pfBit_withPf, frameTypeOf_withPf]
  · simp [withType_eq]
  -- the length indicator, in both directions
  · intro len s hle
    obtain ⟨b, hb, -⟩ := exists_packLength hle
    obtain ⟨n, hn, hlen⟩ := unpackLength_packLength hb
    exact ⟨b, n, (returns_lenPack_iff ..).2 hb, (returns_lenUnpack_iff ..).2 hn, hlen⟩
  · intro b s hodd
    obtain ⟨n, hn, -⟩ := unpackLength_of_odd hodd
    exact ⟨n, (returns_lenUnpack_iff ..).2 hn, (returns_lenPack_iff ..).2 (packLength_unpackLength hn).1⟩

/-! ### Each operation -/

/-- Settles O20: `packAddress` as a number. -/
theorem addrPackResult : Obligations.AddrPackResult := by
  unfold Obligations.AddrPackResult
  intro d v w s
  exact ⟨rfl, _, (returns_addrPack_iff ..).2 rfl, packAddress_toNat d v w⟩

/-- Settles O21: the fields as numbers. -/
theorem addrGettersResult : Obligations.AddrGettersResult := by
  unfold Obligations.AddrGettersResult
  intro a s
  exact ⟨rfl, rfl, rfl, ⟨_, (returns_addrGetEa_iff ..).2 rfl, addressEa_toNat a⟩,
    ⟨_, (returns_addrGetCr_iff ..).2 rfl, addressCr_toNat a⟩,
    _, (returns_addrGetDlci_iff ..).2 rfl, addressDlci_toNat a⟩

/-- Settles O22: EA and CR are one bit that is replaced, and the DLCI is packed with the other two. -/
theorem addrSettersResult : Obligations.AddrSettersResult := by
  unfold Obligations.AddrSettersResult
  intro a s
  refine ⟨fun v d => ⟨rfl, rfl, rfl⟩,
    fun v => ⟨_, (returns_addrSetEa_iff ..).2 (withEa_eq_replaceBit a v), ?_, ?_⟩,
    fun v => ⟨_, (returns_addrSetCr_iff ..).2 (withCr_eq_replaceBit a v), ?_, ?_⟩,
    fun d => ⟨_, (returns_addrSetDlci_iff ..).2 (withDlci_eq a d), ?_, ?_⟩⟩
  · exact getLsbD_replaceBit_same a (by decide) v
  · exact fun k hk => getLsbD_replaceBit_other a hk v
  · exact getLsbD_replaceBit_same a (by decide) v
  · exact fun k hk => getLsbD_replaceBit_other a hk v
  · exact fun k _ => packAddress_bit_add_two d _ _ k
  · intro k hk
    match k with
    | 0 => simp
    | 1 => simp

/-- Settles O23: the type codes of the table, and the answer to the reserved ones from O5. -/
theorem ctrlPackResult : Obligations.CtrlPackResult := by
  unfold Obligations.CtrlPackResult
  obtain ⟨-, hreserved⟩ := frameTypeOperandCodes
  refine ⟨fun p hp pf s => ⟨rfl, _, (returns_ctrlPack_iff ..).2 rfl, ?_⟩, fun k hk v => (hreserved k hk 0 v).1⟩
  rw [packControl_toNat, controlCode_of_row hp]

/-- Settles O24: PF is one bit, read as a number and replaced. -/
theorem ctrlPfResult : Obligations.CtrlPfResult := by
  unfold Obligations.CtrlPfResult
  intro c s
  refine ⟨rfl, fun _ => rfl, ⟨_, (returns_ctrlGetPf_iff ..).2 rfl, pfBit_toNat c⟩, fun v =>
    ⟨_, (returns_ctrlSetPf_iff ..).2 (withPf_eq_replaceBit c v), ?_, fun k hk => getLsbD_replaceBit_other c hk v⟩⟩
  exact getLsbD_replaceBit_same c (by decide) v

/-- Settles O25: the twelve bytes one by one, and every other byte by `frameTypeOf_isSome_iff`. -/
theorem ctrlGetTypeResult : Obligations.CtrlGetTypeResult := by
  unfold Obligations.CtrlGetTypeResult
  refine ⟨fun c => rfl, fun p hp s => ?_, fun c hc s => ?_⟩
  · rw [returns_ctrlGetType_iff]
    revert p
    decide
  · rw [← frameTypeOf_isSome_iff] at hc
    simpa using hc

/-- Settles O26: CTRL.SET_TYPE packs the type with the byte's own PF bit; the reserved codes are those of O5. -/
theorem ctrlSetTypeResult : Obligations.CtrlSetTypeResult := by
  unfold Obligations.CtrlSetTypeResult
  obtain ⟨-, hreserved⟩ := frameTypeOperandCodes
  refine ⟨fun p hp c s => ⟨rfl, _, (returns_ctrlSetType_iff ..).2 (withType_eq c p.1), ?_⟩,
    fun k hk c => (hreserved k hk c 0).2⟩
  rw [packControl_toNat, pfBit_toNat, controlCode_of_row hp]

/-- Settles O27: `packLength` up to `MAX_LEN` and above. -/
theorem lenPackResult : Obligations.LenPackResult := by
  unfold Obligations.LenPackResult
  intro len s
  refine ⟨rfl, fun hle => ?_, fun hgt => (raises_lenPack_iff ..).2 (packLength_of_gt hgt)⟩
  simpa using exists_packLength hle

/-- Settles O28: `unpackLength` of an odd and of an even byte. -/
theorem lenUnpackResult : Obligations.LenUnpackResult := by
  unfold Obligations.LenUnpackResult
  intro b s
  refine ⟨rfl, fun hodd => ?_, fun heven => (raises_lenUnpack_iff ..).2 (unpackLength_of_even heven)⟩
  simpa using unpackLength_of_odd hodd

end Sys2Proof.Machine
end

section
/-! The checksum operations (41_fcs.md): what they answer, the CRC as a loop over a table, its residue, and which changes
of the header it always detects. -/

namespace Sys2Proof.Machine

/-! ### What FCS.COMPUTE and FCS.CHECK answer (R92, R93) -/

section
variable (address control li : Byte) (content : List Byte) (received fcs : Byte) (ok : BitVec 1) (s : State)

@[simp] theorem returns_fcsCompute_iff :
    Returns (.fcsCompute address control li content) s (.byte fcs) ↔ fcsCompute address control li content = fcs := by
  rw [returns_iff_of_ok rfl rfl s (by simp), Result.byte.injEq]

@[simp] theorem returns_fcsCheck_iff :
    Returns (.fcsCheck address control li content received) s (.bit ok) ↔
      fcsCheck address control li content received = ok := by
  rw [returns_iff_of_ok rfl rfl s (by simp), Result.bit.injEq]

theorem fcsCheck_eq_one_iff :
    fcsCheck address control li content received = 1 ↔ fcsCompute address control li content = received := by
  simp [fcsCheck]

theorem fcsCheck_eq_zero_iff :
    fcsCheck address control li content received = 0 ↔ fcsCompute address control li content ≠ received := by
  simp [fcsCheck]

end

theorem fcsCompute_ui {control : Byte} (h : control &&& 0xEF = 0x03) (address li : Byte) (content : List Byte) :
    fcsCompute address control li content = 0xFF ^^^ crc8Rohc ([address, control, li] ++ content) :=
  congrArg (0xFF ^^^ crc8Rohc ·) (coveredBytes_ui h address li content)

theorem fcsCompute_other {control : Byte} (h : control &&& 0xEF ≠ 0x03) (address li : Byte) (content : List Byte) :
    fcsCompute address control li content = 0xFF ^^^ crc8Rohc [address, control, li] :=
  congrArg (0xFF ^^^ crc8Rohc ·) (coveredBytes_other h address li content)

/-- Settles O32: the covered bytes for type UI and for every other control byte. -/
theorem fcsComputeResult : Obligations.FcsComputeResult := by
  unfold Obligations.FcsComputeResult
  intro address control li content s
  exact ⟨rfl, fun hui => (returns_fcsCompute_iff ..).2 (fcsCompute_ui hui ..),
    fun hother => (returns_fcsCompute_iff ..).2 (fcsCompute_other hother ..)⟩

/-- Settles O33: the verdict compares the received byte with what FCS.COMPUTE returns. -/
theorem fcsCheckResult : Obligations.FcsCheckResult := by
  unfold Obligations.FcsCheckResult
  intro address control li content received s
  exact ⟨rfl, _, _, (returns_fcsCompute_iff ..).2 rfl, (returns_fcsCheck_iff ..).2 rfl, fcsCheck_eq_one_iff ..⟩

/-! ### The CRC as a loop, bit-serial and by table (R90, R91, R94) -/

theorem crcShift8_eq_iterate (x : Byte) : crcShift8 x = crcShift^[8] x := rfl

theorem crcFrom_eq_foldl (x : Byte) (bytes : List Byte) :
    crcFrom x bytes = bytes.foldl (fun crc b => crcShift8 (crc ^^^ b)) x := by
  induction bytes generalizing x with
  | nil => rfl
  | cons b rest ih => exact ih _

theorem crc8Rohc_eq_foldl (bytes : List Byte) :
    crc8Rohc bytes = bytes.foldl (fun crc b => crcShift8 (crc ^^^ b)) crcInit :=
  crcFrom_eq_foldl crcInit bytes

theorem crcTable_length : crcTable.length = 256 := by
  simp only [crcTable, List.length_append, List.length_cons, List.length_nil]

/-- The table has an entry for every byte, so looking one up never falls back to a default. -/
theorem crcTable_getElem? (x : Byte) : crcTable[x.toNat]? = some (crcShift8 x) := by
  have hlt : x.toNat < crcTable.length := crcTable_length ▸ x.isLt
  rw [List.getElem?_eq_getElem hlt, ← List.getD_eq_getElem _ 0 hlt, crcTable_getD]

theorem crc8ByTable_eq (bytes : List Byte) : crc8ByTable bytes = crc8Rohc bytes := by
  simp only [crc8ByTable, crcTable_getD, crc8Rohc_eq_foldl]

/-- Settles O34: the CRC is a fold of `crcShift8`, which is eight `crcShift`s and what the table lists. -/
theorem crcTableFormAgrees : Obligations.CrcTableFormAgrees := by
  unfold Obligations.CrcTableFormAgrees
  refine ⟨fun bytes => ?_, fun x => ?_, crc8ByTable_eq⟩
  · simp only [crc8Rohc_eq_foldl, crcShift8_eq_iterate]
    rfl
  · rw [crcTable_getElem?, crcShift8_eq_iterate]
    rfl

/-! ### The residue (R95) -/

theorem crc8Rohc_append (u v : List Byte) : crc8Rohc (u ++ v) = crcFrom (crc8Rohc u) v := crcFrom_append crcInit u v

/-- A running value and its own complement cancel to 0xFF, whatever the value is. -/
theorem crcFrom_complement (crc : Byte) : crcFrom crc [0xFF ^^^ crc] = 0xCF := by
  have hcancel : crc ^^^ (0xFF ^^^ crc) = 0xFF := by rw [BitVec.xor_comm 0xFF, ← BitVec.xor_assoc]; simp
  rw [crcFrom_cons, hcancel]
  decide

/-- Settles O35: the last byte is the complement of the running value it meets. -/
theorem crcResidueIsConstant : Obligations.CrcResidueIsConstant := by
  unfold Obligations.CrcResidueIsConstant
  intro bytes
  rw [crc8Rohc_append, crcFrom_complement]

/-! ### One changed byte (R91 to R93) -/

/-- Sequences that differ in one byte have different CRCs: the step that takes the byte and the steps behind it are one
to one. -/
theorem crc8Rohc_changed_byte {b c : Byte} (h : b ≠ c) (u v : List Byte) :
    crc8Rohc (u ++ b :: v) ≠ crc8Rohc (u ++ c :: v) := by
  intro heq
  rw [crc8Rohc_append, crc8Rohc_append, crcFrom_cons, crcFrom_cons] at heq
  exact h ((BitVec.xor_right_inj _).1 (crcShift8_inj (crcFrom_inj v heq)))

/-- What is covered behind the header: the content for type UI, nothing otherwise (R52). -/
def coveredContent (control : Byte) (content : List Byte) : List Byte :=
  if control &&& 0xEF = 0x03 then content else []

theorem coveredBytes_eq (address control li : Byte) (content : List Byte) :
    coveredBytes address control li content = [address, control, li] ++ coveredContent control content := by
  unfold coveredContent
  split
  next hui => exact coveredBytes_ui hui address li content
  next hother => exact coveredBytes_other hother address li content

/-- Control bytes that are both of type UI or both not cover the same content. -/
theorem coveredContent_congr {c d : Byte} (h : c &&& 0xEF = 0x03 ↔ d &&& 0xEF = 0x03) (content : List Byte) :
    coveredContent c content = coveredContent d content := by
  simp only [coveredContent, h]

/-- Header and covered content with one changed header byte never pass the check with the old checksum. -/
theorem fcsCheck_changed_byte {address control li address' control' li' b c : Byte} {content u v : List Byte}
    (h : b ≠ c) (hnew : [address', control', li'] ++ coveredContent control' content = u ++ b :: v)
    (hold : [address, control, li] ++ coveredContent control content = u ++ c :: v) :
    fcsCheck address' control' li' content (fcsCompute address control li content) = 0 := by
  rw [fcsCheck_eq_zero_iff, fcsCompute, fcsCompute, coveredBytes_eq, coveredBytes_eq, hnew, hold]
  exact mt (BitVec.xor_right_inj _).1 (crc8Rohc_changed_byte h u v)

/-- Settles O36: each of the three changes is one changed byte of the covered ones. -/
theorem oneChangedHeaderByteIsDetected : Obligations.OneChangedHeaderByteIsDetected := by
  unfold Obligations.OneChangedHeaderByteIsDetected
  intro address control li x content fcs s hfcs
  obtain rfl := (returns_fcsCompute_iff ..).1 hfcs
  simp only [returns_fcsCheck_iff]
  refine ⟨fun haddress => ?_, fun hcontrol hcoverage => ?_, fun hli => ?_⟩
  · exact fcsCheck_changed_byte (u := []) haddress rfl rfl
  · refine fcsCheck_changed_byte (u := [address]) hcontrol rfl ?_
    rw [coveredContent_congr hcoverage]
    rfl
  · exact fcsCheck_changed_byte (u := [address, control]) hli rfl rfl

end Sys2Proof.Machine
end

section
/-! The frame codec (42_frame_codec.md): what FRAME.ENCODE and FRAME.DECODE answer, on every shape of input, and that
they are inverse to each other. -/

namespace Sys2Proof.Machine

/-! ### What the two operations answer (R109) -/

section
variable (f : Frame) (wire input : List Byte) (d : Decoded) (s : State)

@[simp] theorem returns_frameEncode_iff : Returns (.frameEncode f) s (.bytes wire) ↔ encodeFrame f = .ok wire := by
  rw [returns_iff rfl s _ (by simp)]
  cases h : encodeFrame f <;> simp [pureResult, h, Except.map]

@[simp] theorem raises_frameEncode_iff {st : Status} (hst : st ≠ .ok) :
    Raises (.frameEncode f) s st ↔ encodeFrame f = .error st := by
  rw [raises_iff rfl s _ hst]
  cases h : encodeFrame f <;> simp [pureResult, h, Except.map]

@[simp] theorem returns_frameDecode_iff :
    Returns (.frameDecode input) s (.decoded d) ↔ decodeFrame input = .ok d := by
  rw [returns_iff rfl s _ (by simp)]
  cases h : decodeFrame input <;> simp [pureResult, h, Except.map]

@[simp] theorem raises_frameDecode_iff {st : Status} (hst : st ≠ .ok) :
    Raises (.frameDecode input) s st ↔ decodeFrame input = .error st := by
  rw [raises_iff rfl s _ hst]
  cases h : decodeFrame input <;> simp [pureResult, h, Except.map]

end

/-! ### The round trip (R110) -/

/-- Decoding looks at no byte at or beyond `consumed`, and what it consumed behind the skipped bytes is the frame's wire
form. -/
theorem decodeFrame_consumed {input : List Byte} {d : Decoded} (h : decodeFrame input = .ok d) (t : List Byte) :
    decodeFrame (input.take d.consumed ++ t) = .ok d ∧
      encodeFrame d.frame = .ok ((input.drop d.skipped).take (d.consumed - d.skipped)) := by
  obtain ⟨g, w, rest, rfl, hg, hw, hskipped, hconsumed⟩ := decodeFrame_eq_ok h
  have htake : (g ++ w ++ rest).take d.consumed = g ++ w := by
    rw [hconsumed, ← List.length_append, List.take_left]
  have hspan : ((g ++ w ++ rest).drop d.skipped).take (d.consumed - d.skipped) = w := by
    simp [hskipped, hconsumed]
  rw [htake, hspan, decodeFrame_encodeFrame hw hg t, ← hconsumed, ← hskipped]
  exact ⟨rfl, hw⟩

/-- Settles O40: `decodeFrame_encodeFrame` one way, `decodeFrame_consumed` the other. -/
theorem frameRoundTrip : Obligations.FrameRoundTrip := by
  unfold Obligations.FrameRoundTrip
  refine ⟨fun f g t s hlen hg => ?_, fun input t d s h => ?_⟩
  · obtain ⟨wire, hwire⟩ := encodeFrame_of_le hlen
    exact ⟨wire, (returns_frameEncode_iff ..).2 hwire, encodeFrame_length hwire,
      (returns_frameDecode_iff ..).2 (decodeFrame_encodeFrame hwire hg t)⟩
  · rw [returns_frameDecode_iff] at h
    simpa using decodeFrame_consumed h t

/-! ### Each operation (R100, R101) -/

/-- Settles O37: the wire form of `encodeFrame_eq_ok`, whose length indicator is `2L + 1`. -/
theorem frameEncodeResult : Obligations.FrameEncodeResult := by
  unfold Obligations.FrameEncodeResult
  intro f s
  refine ⟨rfl, fun hle => ?_, fun hgt => (raises_frameEncode_iff f s (by simp)).2 (encodeFrame_of_gt hgt)⟩
  obtain ⟨wire, hwire⟩ := encodeFrame_of_le hle
  obtain ⟨li, hli, hform⟩ := encodeFrame_eq_ok hwire
  obtain ⟨b, hb, hnum⟩ := exists_packLength hle
  obtain rfl : li = b := Except.ok.inj (hli.symm.trans hb)
  exact ⟨li, _, wire, hnum, (returns_fcsCompute_iff ..).2 rfl, (returns_frameEncode_iff ..).2 hwire,
    by simpa [FLAG] using hform, encodeFrame_length hwire⟩

/-- Settles O38: one lemma about `decodeFrame` per shape of its input, in the order of its checks (R112). -/
theorem frameDecodeResult : Obligations.FrameDecodeResult := by
  unfold Obligations.FrameDecodeResult
  simp only [List.append_assoc, List.cons_append, List.nil_append]
  refine ⟨fun _ => rfl, fun input s hn => ?noFlag, fun g rest s hg hshort => ?shortHeader,
    fun g tail a c li s hg => ⟨fun heven => ?twoOctetLength, fun hodd hshort => ?shortTail⟩,
    fun g content tail a c li received closing s hg hodd hlen => ?whole⟩
  case noFlag => simpa using decodeFrame_no_flag hn
  case shortHeader => simpa using decodeFrame_short_header hg hshort
  case twoOctetLength => simpa using decodeFrame_unsupported hg (unpackLength_of_even heven)
  case shortTail =>
    obtain ⟨k, hk, hknum⟩ := unpackLength_of_odd hodd
    simpa using decodeFrame_short_tail hg hk (by rwa [hknum])
  case whole =>
    obtain ⟨k, hk, hknum⟩ := unpackLength_of_odd hodd
    have hdecode := decodeFrame_whole (a := a) (c := c) (received := received) (closing := closing) (tail := tail) hg hk
      (hknum.trans hlen.symm)
    refine ⟨_, (returns_fcsCompute_iff ..).2 rfl, fun hclosing => ?_, fun hclosing hfcs => ?_, fun hclosing hfcs => ?_⟩
    · simpa [hclosing] using hdecode
    · simpa [hclosing, hfcs] using hdecode
    · simpa [hclosing, hfcs] using hdecode

/-- Settles O39: `decodeFrame` answers with results, or with one of the statuses of `decodeFrame_eq_error`. -/
theorem frameDecodeIsTotal : Obligations.FrameDecodeIsTotal := by
  unfold Obligations.FrameDecodeIsTotal
  intro input s
  cases h : decodeFrame input with
  | ok d => exact .inl ⟨d, (returns_frameDecode_iff ..).2 h⟩
  | error st => simpa [h] using decodeFrame_eq_error h

end Sys2Proof.Machine
end

section
/-! The FrameBuffer operations (43_frame_buffer.md): what FB.INGEST, FB.EXTRACT and FB.DRAIN answer and leave in `FB`,
and which frames they return. -/

namespace Sys2Proof.Machine

/-! ### Operations in a row (00_scope.md R2) -/

theorem execAll_cons {i : Instr} {s t : State} (h : exec i s = .next t) (rest : List Instr) :
    execAll (i :: rest) s = execAll rest t := by simp [execAll, h]

/-- A last operation runs in the state that the ones before it give. -/
theorem execAll_singleton {i : Instr} {s t : State} (h : exec i s = .next t) : execAll [i] s = .next t :=
  execAll_cons h []

/-! ### FB.INGEST (R120) -/

theorem exec_fbIngest_of_le {bytes : List Byte} {s : State} (h : s.fb.length + bytes.length ≤ s.config.fbCap) :
    exec (.fbIngest bytes) s = .next ((s.setFb (s.fb ++ bytes)).answer .none) := by
  rw [exec_fbIngest, execFbIngest_eq, if_neg (Nat.not_lt_of_le h)]

theorem exec_fbIngest_of_gt {bytes : List Byte} {s : State} (h : s.config.fbCap < s.fb.length + bytes.length) :
    exec (.fbIngest bytes) s = .next (s.raise (.overflow s.fb.length bytes.length)) := by
  rw [exec_fbIngest, execFbIngest_eq, if_pos h]

/-- Settles O41: the two sides of the capacity. -/
theorem ingestResult : Obligations.IngestResult := by
  unfold Obligations.IngestResult
  refine fun bytes s => ⟨rfl, fun hfits => ?_, fun hover => ⟨_, exec_fbIngest_of_gt hover, rfl, onlyResponds_raise ..⟩⟩
  refine ⟨_, exec_fbIngest_of_le hfits, rfl, rfl, rfl, rfl, fun i hi => ?_, fun j => ?_⟩
  · simp [State.readByte, List.getElem?_append_left hi]
  · simp [List.getElem?_append_right]

/-- Pieces that fit together are all ingested, at the tail and in order, before the operations behind them. -/
theorem execAll_fbIngest_append (pieces : List (List Byte)) (rest : List Instr) (s : State)
    (h : s.fb.length + pieces.flatten.length ≤ s.config.fbCap) :
    ∃ t, execAll (pieces.map .fbIngest ++ rest) s = execAll rest t ∧ t.fb = s.fb ++ pieces.flatten := by
  induction pieces generalizing s with
  | nil => exact ⟨s, rfl, by simp⟩
  | cons piece pieces ih =>
    have hpiece : s.fb.length + piece.length ≤ s.config.fbCap := by
      simp only [List.flatten_cons, List.length_append] at h
      omega
    obtain ⟨t, hrun, hfb⟩ := ih ((s.setFb (s.fb ++ piece)).answer .none) (by simpa [Nat.add_assoc] using h)
    refine ⟨t, ?_, by simpa using hfb⟩
    rw [List.map_cons, List.cons_append, execAll_cons (exec_fbIngest_of_le hpiece), hrun]

/-! ### FB.EXTRACT (R122 to R124) -/

/-- What FB.EXTRACT answers to an extraction: the frame, or `NoFrame`. -/
def extractResponse : Option Frame → Response
  | some f => ⟨.ok, .frame f⟩
  | none => ⟨.noFrame, .none⟩

@[simp] theorem extractResponse_eq_frame_iff (o : Option Frame) (f : Frame) :
    extractResponse o = ⟨.ok, .frame f⟩ ↔ o = some f := by
  cases o <;> simp [extractResponse]

@[simp] theorem extractResponse_eq_noFrame_iff (o : Option Frame) : extractResponse o = ⟨.noFrame, .none⟩ ↔ o = none := by
  cases o <;> simp [extractResponse]

theorem exec_fbExtract_eq (s : State) :
    exec .fbExtract s =
      .next { s with fb := (extractOne s.fb).2, response := some (extractResponse (extractOne s.fb).1) } := by
  rw [exec_fbExtract, execFbExtract_eq]
  cases (extractOne s.fb).1 <;> rfl

/-- The wire form of an extracted frame stands behind bytes without a FLAG, and what follows it stays (R123). -/
theorem extractOne_of_some {fb : Memory} {f : Frame} (h : (extractOne fb).1 = some f) :
    ∃ g w, FLAG ∉ g ∧ encodeFrame f = .ok w ∧ fb = g ++ w ++ (extractOne fb).2 := by
  rcases extractOne_cases fb with ⟨f', g, w, hw, hg, hfb, hf⟩ | ⟨g, -, -, hnone⟩ | ⟨-, hnone⟩
  · obtain rfl : f = f' := Option.some.inj (h.symm.trans hf)
    exact ⟨g, w, hg, hw, hfb⟩
  · rw [hnone] at h
    cases h
  · rw [hnone] at h
    cases h

/-- Without a frame an extraction is the resynchronisation of R124. -/
theorem extractOne_snd_of_none {fb : Memory} (h : (extractOne fb).1 = none) : (extractOne fb).2 = resync fb := by
  cases hd : decodeFrame fb with
  | ok d =>
    rw [extractOne_of_ok hd] at h
    cases h
  | error st => rw [extractOne_of_error hd]

theorem exists_error_of_raises_frameDecode {input : List Byte} {s : State} {st : Status}
    (h : Raises (.frameDecode input) s st) : ∃ st, decodeFrame input = .error st := by
  cases hd : decodeFrame input with
  | ok d =>
    obtain ⟨t, ht, hraised, -⟩ := h
    obtain ⟨u, hu, hreturned, -⟩ := (returns_frameDecode_iff input d s).2 hd
    cases ht.symm.trans hu
    simp [hreturned] at hraised
  | error st => exact ⟨st, rfl⟩

/-- Settles O42: the two cases of FRAME.DECODE, and for the failing one the two of the resynchronisation. -/
theorem extractResult : Obligations.ExtractResult := by
  unfold Obligations.ExtractResult
  refine ⟨rfl, fun s => ⟨_, exec_fbExtract_eq s, rfl, rfl, fun d hd => ?returned, fun st hst => ?raised⟩⟩
  case returned =>
    rw [returns_frameDecode_iff] at hd
    simp [extractOne_of_ok hd]
  case raised =>
    obtain ⟨st, hd⟩ := exists_error_of_raises_frameDecode hst
    simp only [extractOne_of_error hd]
    exact ⟨rfl, resync_no_flag, fun g rest hg hfb => by rw [hfb, resync_split hg]⟩

/-! ### Progress (R126) -/

theorem extractOne_shorter_of_pos {fb : Memory} (h : 0 < fb.length) : (extractOne fb).2.length < fb.length := by
  by_cases hflag : FLAG ∈ fb
  · exact extractOne_shorter hflag
  · simpa [extractOne_no_flag hflag] using h

/-- Every wire form has six bytes or more, so an extraction with a frame removes as many (R126). -/
theorem extractOne_removes_six {fb : Memory} {f : Frame} (h : (extractOne fb).1 = some f) :
    (extractOne fb).2.length + 6 ≤ fb.length := by
  obtain ⟨g, w, -, hw, hfb⟩ := extractOne_of_some h
  have hwire := encodeFrame_length hw
  have hlen := congrArg List.length hfb
  simp only [List.length_append] at hlen
  omega

/-- Settles O43: the length of `FB` after each outcome of an extraction. -/
theorem extractMakesProgress : Obligations.ExtractMakesProgress := by
  unfold Obligations.ExtractMakesProgress
  refine fun s => ⟨_, exec_fbExtract_eq s, extractOne_shorter_of_pos, fun f hf => ?frame, fun hnone => ?noFrame,
    fun hempty => ?empty⟩
  case frame => exact extractOne_removes_six (by simpa using hf)
  case noFrame =>
    have hresync : (extractOne s.fb).2 = resync s.fb := extractOne_snd_of_none (by simpa using hnone)
    simp only [hresync]
    refine ⟨resync_no_flag, fun g rest hg hfb => ?_⟩
    rw [hfb, resync_split hg]
    simp
    omega
  case empty => simp [hempty, extractOne_no_flag]

/-! ### FB.DRAIN (R125) -/

theorem exec_fbDrain_eq (s : State) :
    exec .fbDrain s =
      .next { s with fb := (drainAll s.fb).2, response := some ⟨.ok, .frames (drainAll s.fb).1⟩ } :=
  (exec_fbDrain s).trans (execFbDrain_eq s)

/-- Each drained frame took six bytes or more (R126). -/
theorem drainAll_frames_length (fb : Memory) : 6 * (drainAll fb).1.length ≤ fb.length := by
  induction fb using drain_induction with
  | hn fb h => simp [drainAll_no_flag h]
  | hs fb h ih =>
    rw [drainAll_flag h]
    cases hf : (extractOne fb).1 with
    | none =>
      have := extractOne_shorter h
      simp
      omega
    | some f =>
      have := extractOne_removes_six hf
      simp
      omega

/-- Settles O44: `drainAll_no_flag` and `drainAll_flag` are the loop's two cases, `drainAll_frames_length` the bound. -/
theorem drainRepeatsExtract : Obligations.DrainRepeatsExtract := by
  unfold Obligations.DrainRepeatsExtract
  refine ⟨rfl, fun s hn => ?noFlag, fun s hflag => ?turn, fun s t fs ht hfs => ?bound⟩
  case noFlag =>
    refine ⟨_, exec_fbDrain_eq s, ?_⟩
    rw [drainAll_no_flag hn]
    exact ⟨rfl, onlyResponds_answer s _⟩
  case turn =>
    refine ⟨_, _, _, _, exec_fbDrain_eq s, exec_fbExtract_eq s, exec_fbDrain_eq _, rfl, ?_, rfl, rfl, ?_⟩
    · rw [drainAll_flag hflag]
    · rw [drainAll_flag hflag]
      cases hf : (extractOne s.fb).1 with
      | none => exact .inr ⟨rfl, rfl⟩
      | some f => exact .inl ⟨f, rfl, rfl⟩
  case bound =>
    cases (exec_fbDrain_eq s).symm.trans ht
    cases hfs
    have := drainAll_frames_length s.fb
    omega

/-! ### The residue (R127) -/

theorem flag_not_mem_drainAll (fb : Memory) : FLAG ∉ (drainAll fb).2 := by
  induction fb using drain_induction with
  | hn fb h => rwa [drainAll_no_flag h]
  | hs fb h ih => rwa [drainAll_flag h]

/-- Where the buffer has a FLAG, what a drain leaves stands behind one. -/
theorem drainAll_suffix_behind_flag {fb : Memory} (h : FLAG ∈ fb) : FLAG :: (drainAll fb).2 <:+ fb := by
  induction fb using drain_induction with
  | hn fb hn => exact absurd h hn
  | hs fb _ ih =>
    obtain ⟨u, hu⟩ := extractOne_removes_through_flag h
    have hbehind : FLAG :: (extractOne fb).2 <:+ fb := ⟨u, hu.symm⟩
    rw [drainAll_flag h]
    by_cases hmore : FLAG ∈ (extractOne fb).2
    · exact (ih hmore).trans (extractOne_suffix fb)
    · simpa only [drainAll_no_flag hmore] using hbehind

/-- A suffix without a FLAG lies behind every FLAG. -/
theorem suffix_of_flag_cons_suffix {s x r : List Byte} (hx : FLAG :: x <:+ s) (hr : r <:+ s) (hn : FLAG ∉ r) :
    r <:+ x := by
  rcases List.suffix_or_suffix_of_suffix hx hr with hxr | hrx
  · exact absurd (hxr.subset List.mem_cons_self) hn
  · rcases List.suffix_cons_iff.1 hrx with rfl | h
    · exact absurd List.mem_cons_self hn
    · exact h

/-- Only one suffix without a FLAG stands behind a FLAG: the bytes behind the last one. -/
theorem residue_unique {s x r : List Byte} (hx : FLAG :: x <:+ s) (hxn : FLAG ∉ x) (hr : FLAG :: r <:+ s)
    (hrn : FLAG ∉ r) : x = r :=
  (suffix_of_flag_cons_suffix hr ((List.suffix_cons _ _).trans hx) hxn).eq_of_length_le
    (suffix_of_flag_cons_suffix hx ((List.suffix_cons _ _).trans hr) hrn).length_le

/-- Settles O45: a drain leaves a suffix without a FLAG behind a FLAG, and there is only one. -/
theorem drainLeavesTheResidue : Obligations.DrainLeavesTheResidue := by
  unfold Obligations.DrainLeavesTheResidue
  refine fun s => ⟨_, _, exec_fbDrain_eq s, rfl, rfl, rfl, flag_not_mem_drainAll s.fb, fun g r hfb hr => ?_, fun hn => ?_⟩
  · have hlast : FLAG :: r <:+ s.fb := ⟨g, hfb.symm⟩
    have hflag : FLAG ∈ s.fb := hlast.subset List.mem_cons_self
    exact residue_unique (drainAll_suffix_behind_flag hflag) (flag_not_mem_drainAll s.fb) hlast hr
  · simp [drainAll_no_flag hn]

/-! ### Safety of acceptance (R123, R129) -/

/-- The wire forms of the frames stand in the buffer in order and without overlap, with gaps before them and a rest. -/
def HoldsInOrder (fb : Memory) (fs : List Frame) : Prop :=
  ∃ (gaps wires : List (List Byte)) (r : List Byte), List.Forall₂ (fun f w => encodeFrame f = .ok w) fs wires ∧
    gaps.length = wires.length ∧ fb = (List.zipWith (fun g w => g ++ w) gaps wires).flatten ++ r

theorem holdsInOrder_nil (fb : Memory) : HoldsInOrder fb [] := ⟨[], [], fb, .nil, rfl, rfl⟩

theorem HoldsInOrder.cons {fb : Memory} {fs : List Frame} (h : HoldsInOrder fb fs) {f : Frame} {w : List Byte}
    (hw : encodeFrame f = .ok w) (g : List Byte) : HoldsInOrder (g ++ w ++ fb) (f :: fs) := by
  obtain ⟨gaps, wires, r, hwires, hlen, rfl⟩ := h
  exact ⟨g :: gaps, w :: wires, r, .cons hw hwires, by simp [hlen], by simp⟩

/-- Bytes in front of the buffer go to the first gap, or to the rest where there is no frame. -/
theorem HoldsInOrder.prepend {fb : Memory} {fs : List Frame} (h : HoldsInOrder fb fs) (u : List Byte) :
    HoldsInOrder (u ++ fb) fs := by
  obtain ⟨gaps, wires, r, hwires, hlen, rfl⟩ := h
  cases hwires with
  | nil => exact holdsInOrder_nil _
  | cons hw hwires =>
    obtain ⟨g, gaps, rfl⟩ := List.exists_cons_of_length_eq_add_one hlen
    exact ⟨(u ++ g) :: gaps, _, r, .cons hw hwires, hlen, by simp⟩

theorem drainAll_holdsInOrder (fb : Memory) : HoldsInOrder fb (drainAll fb).1 := by
  induction fb using drain_induction with
  | hn fb h =>
    rw [drainAll_no_flag h]
    exact holdsInOrder_nil fb
  | hs fb h ih =>
    rw [drainAll_flag h]
    cases hf : (extractOne fb).1 with
    | none =>
      obtain ⟨u, hu⟩ := extractOne_suffix fb
      simpa [hu] using ih.prepend u
    | some f =>
      obtain ⟨g, w, -, hw, hfb⟩ := extractOne_of_some hf
      simpa [← hfb] using ih.cons hw g

/-- Settles O47: one extraction by `extractOne_of_some`, a drain by induction along its loop. -/
theorem onlyValidSpansAreAccepted : Obligations.OnlyValidSpansAreAccepted := by
  unfold Obligations.OnlyValidSpansAreAccepted
  refine ⟨fun s t f ht hf => ?extract, fun s t fs ht hfs => ?drain⟩
  case extract =>
    cases (exec_fbExtract_eq s).symm.trans ht
    obtain ⟨g, w, -, hw, hfb⟩ := extractOne_of_some (by simpa using hf)
    exact ⟨g, w, hw, hfb⟩
  case drain =>
    cases (exec_fbDrain_eq s).symm.trans ht
    cases hfs
    exact drainAll_holdsInOrder s.fb

/-! ### The clean stream (R129) -/

/-- Draining encoded frames behind bytes without a FLAG returns them all. -/
theorem drainAll_wires {fs : List Frame} {wires : List (List Byte)}
    (h : List.Forall₂ (fun f w => encodeFrame f = .ok w) fs wires) {g : List Byte} (hg : FLAG ∉ g) :
    drainAll (g ++ wires.flatten) = (fs, if fs = [] then g else []) := by
  induction h generalizing g with
  | nil => simp [drainAll_no_flag hg]
  | @cons f w fs wires hw _ ih =>
    have hflag : FLAG ∈ g ++ w ++ wires.flatten := by
      obtain ⟨b, rfl⟩ := encodeFrame_ends_in_flag hw
      simp
    have hrest : drainAll wires.flatten = (fs, []) := by simpa using ih (g := []) (by simp)
    rw [List.flatten_cons, ← List.append_assoc, drainAll_flag hflag, extractOne_encodeFrame hw hg, hrest]
    simp

/-- Settles O48: the pieces put the whole stream into `FB`, and one drain of it returns every frame. -/
theorem cleanStreamIsReturnedWhole : Obligations.CleanStreamIsReturnedWhole := by
  unfold Obligations.CleanStreamIsReturnedWhole
  intro s g fs wires pieces hempty hg hwires hpieces hfits
  obtain ⟨t, hrun, hfb⟩ := execAll_fbIngest_append pieces [.fbDrain] s (by simpa [hempty] using hfits)
  have hdrain : drainAll t.fb = (fs, if fs = [] then g else []) := by
    rw [hfb, hempty, List.nil_append, hpieces, drainAll_wires hwires hg]
  exact ⟨_, hrun.trans (execAll_singleton (exec_fbDrain_eq t)), by simp [hdrain], by simp [hdrain]⟩

end Sys2Proof.Machine
end

section
/-! The host's building blocks (44_host_usage.md R144 to R146, R151): transport errors, the delivery of one frame,
frames on the serial stream, and sequences of such work. -/

namespace Sys2Proof.Machine

/-! ### Transport errors (R151) -/

/-- What a transport error does to the host: it is logged with the affected channel and ends the work, and the policy
says what becomes of the loop and of the channel table (log entry 16). -/
structure HostState.FailsAt (p : HostParams) (channel : Option Nat) (h h' : HostState) : Prop where
  log        : h'.log = h.log ++ [.transportIOError channel]
  workEnded  : h'.workEnded = true
  delivered  : h'.delivered = h.delivered
  serialOut  : h'.serialOut = h.serialOut
  fatal      : p.ioError = .fatal → h'.running = false ∧ h'.channels = []
  perChannel : p.ioError = .perChannel → h'.running = h.running ∧ ∀ id, h'.channels[id]? =
    (h.channels[id]?).map (fun c => if channel = some id then { c with failed := true } else c)

theorem ioFailure_failsAt (p : HostParams) (channel : Option Nat) (sys : System) :
    sys.host.FailsAt p channel (System.ioFailure p channel sys).host := by
  unfold System.ioFailure
  cases hp : p.ioError with
  | fatal => exact ⟨rfl, rfl, rfl, rfl, fun _ => ⟨rfl, rfl⟩, fun h => absurd (hp.symm.trans h) (by decide)⟩
  | perChannel =>
    cases channel with
    | none => exact ⟨rfl, rfl, rfl, rfl, fun h => absurd (hp.symm.trans h) (by decide), fun _ => ⟨rfl, by simp⟩⟩
    | some id =>
      refine ⟨rfl, rfl, rfl, rfl, fun h => absurd (hp.symm.trans h) (by decide), fun _ => ⟨rfl, fun i => ?_⟩⟩
      simp [List.getElem?_modify]

/-- So does one of a write, whose answer is taken. -/
theorem failedWrite_failsAt (p : HostParams) (channel : Option Nat) (sys : System) (b : State) :
    sys.host.FailsAt p channel (System.ioFailure p channel
      { host := { sys.host with writeAnswers := sys.host.writeAnswers.tail }, block := b }).host :=
  have hfails := ioFailure_failsAt p channel
    { host := { sys.host with writeAnswers := sys.host.writeAnswers.tail }, block := b }
  ⟨hfails.log, hfails.workEnded, hfails.delivered, hfails.serialOut, hfails.fatal, hfails.perChannel⟩

@[simp] theorem ioFailure_block (p : HostParams) (channel : Option Nat) (sys : System) :
    (System.ioFailure p channel sys).block = sys.block := by
  unfold System.ioFailure
  cases p.ioError <;> cases channel <;> rfl

/-! ### The answers to writes (log entry 20) -/

/-- No write to come fails. -/
def HostState.NoWriteFails (h : HostState) : Prop := ∀ a ∈ h.writeAnswers, a = .written

theorem HostState.NoWriteFails.head_ne {h : HostState} (hw : h.NoWriteFails) :
    h.writeAnswers.head? ≠ some .failed := fun hhead =>
  absurd (hw _ (List.mem_of_head? hhead)) (by decide)

theorem HostState.NoWriteFails.of_tail {h h' : HostState} (hw : h.NoWriteFails)
    (htail : h'.writeAnswers = h.writeAnswers.tail) : h'.NoWriteFails :=
  fun a ha => hw a (List.mem_of_mem_tail (htail ▸ ha))

/-! ### Frame types of received frames (R41, R48) -/

theorem mem_payload_iff (c : Byte) : c ∈ ([0xEF, 0xFF, 0x03, 0x13] : List Byte) ↔
    frameTypeOf c = some .uih ∨ frameTypeOf c = some .ui := by
  revert c
  decide

theorem mem_signalling_iff (c : Byte) : c ∈ ([0x2F, 0x3F, 0x63, 0x73, 0x0F, 0x1F, 0x43, 0x53] : List Byte) ↔
    frameTypeOf c ≠ none ∧ c ∉ ([0xEF, 0xFF, 0x03, 0x13] : List Byte) := by
  revert c
  decide

/-! ### Routing one frame (R144, R145) -/

section
variable (p : HostParams) (sys : System) (f : Frame)

/-- A frame that carries payload goes to its id's channel. -/
theorem route_payload (h : f.control ∈ ([0xEF, 0xFF, 0x03, 0x13] : List Byte)) :
    ∃ b : State, b.fb = sys.block.fb ∧
      sys.route p f = System.deliver p { sys with block := b } (f.address.toNat / 4) f.content := by
  rw [mem_payload_iff] at h
  obtain ⟨b, hb, ⟨hnone, -⟩ | ⟨t, ht, hother, -⟩ | ⟨_, -, -, hroute⟩⟩ := route_cases p sys f
  · simp [hnone] at h
  · exact absurd (by simpa [ht] using h) hother
  · exact ⟨b, hb, hroute⟩

/-- A received SABM, UA, DM or DISC is left alone. -/
theorem route_signalling
    (h : f.control ∈ ([0x2F, 0x3F, 0x63, 0x73, 0x0F, 0x1F, 0x43, 0x53] : List Byte)) :
    ∃ b : State, b.fb = sys.block.fb ∧ sys.route p f = { sys with block := b } := by
  rw [mem_signalling_iff, mem_payload_iff] at h
  obtain ⟨b, hb, ⟨hnone, -⟩ | ⟨_, -, -, hroute⟩ | ⟨t, ht, hpayload, -⟩⟩ := route_cases p sys f
  · exact absurd hnone h.1
  · exact ⟨b, hb, hroute⟩
  · exact absurd (by simpa [ht] using hpayload) h.2

/-- A frame without a type is logged. -/
theorem route_untyped (h : frameTypeOf f.control = none) :
    ∃ b : State, b.fb = sys.block.fb ∧
      sys.route p f = System.logEntry { sys with block := b } (.unsupportedFrameType f.control) := by
  obtain ⟨b, hb, ⟨-, hroute⟩ | ⟨t, ht, -⟩ | ⟨t, ht, -⟩⟩ := route_cases p sys f
  · exact ⟨b, hb, hroute⟩
  · cases h.symm.trans ht
  · cases h.symm.trans ht

end

section
variable (p : HostParams) {sys : System} {id : Nat} (content : List Byte)

/-- A channel that is bound and in service takes what is delivered to it. -/
theorem deliver_inService {c : Channel} (hc : sys.host.channels[id]? = some c) (hbound : c.bound = true)
    (hfailed : c.failed = false) :
    sys.deliver p id content = sys.writeEndpoint id content (System.ioFailure p (some id)) := by
  simp [System.deliver, hc, hbound, hfailed]

/-- An id without a bound endpoint is unknown. -/
theorem deliver_unknown (h : ∀ c, sys.host.channels[id]? = some c → c.bound = false) :
    sys.deliver p id content = sys.logEntry (.unknownChannel id) := by
  cases hc : sys.host.channels[id]? with
  | none => simp [System.deliver, hc]
  | some c => simp [System.deliver, hc, h c hc]

theorem deliver_outOfService {c : Channel} (hc : sys.host.channels[id]? = some c) (hbound : c.bound = true)
    (hfailed : c.failed = true) : sys.deliver p id content = sys.logEntry (.channelFailed id) := by
  simp [System.deliver, hc, hbound, hfailed]

end

/-- An id is that of a channel in service, of none with an endpoint, or of one out of service. -/
theorem channel_cases (channels : List Channel) (id : Nat) :
    (∃ c, channels[id]? = some c ∧ c.bound = true ∧ c.failed = false) ∨
    (∀ c, channels[id]? = some c → c.bound = false) ∨
    ∃ c, channels[id]? = some c ∧ c.bound = true ∧ c.failed = true := by
  cases hc : channels[id]? with
  | none => exact .inr (.inl (by simp))
  | some c =>
    cases hbound : c.bound with
    | false => exact .inr (.inl (by simp [hbound]))
    | true =>
      cases hfailed : c.failed with
      | false => exact .inl ⟨c, rfl, hbound, hfailed⟩
      | true => exact .inr (.inr ⟨c, rfl, hbound, hfailed⟩)

/-! ### Frames on the serial stream (R143, R146, R148, R149) -/

/-- The frame the host builds for a channel, with EA = 1 (R140). -/
def channelFrame (id : Nat) (cr : BitVec 1) (t : FrameType) (pf : BitVec 1) (content : List Byte) : Frame :=
  ⟨packAddress (BitVec.ofNat 6 id) cr 1#1, packControl t pf, content⟩

theorem channelFrame_address_toNat {id : Nat} (hid : id ≤ 63) (cr : BitVec 1) (t : FrameType) (pf : BitVec 1)
    (content : List Byte) : (channelFrame id cr t pf content).address.toNat = id * 4 + cr.toNat * 2 + 1 := by
  have hmod : id % 64 = id := Nat.mod_eq_of_lt (by omega)
  simp [channelFrame, packAddress_toNat, hmod]

/-- Its header as numbers, as the statements write it. -/
theorem channelFrame_header {id : Nat} (hid : id ≤ 63) {cr : BitVec 1} {t : FrameType} {pf : BitVec 1}
    {content w : List Byte} (h : encodeFrame (channelFrame id cr t pf content) = .ok w) :
    ∃ a c : Byte, a.toNat = id * 4 + cr.toNat * 2 + 1 ∧ c.toNat = t.controlCode.toNat + pf.toNat * 16 ∧
      encodeFrame ⟨a, c, content⟩ = .ok w :=
  ⟨_, _, channelFrame_address_toNat hid cr t pf content, packControl_toNat t pf, h⟩

section
variable {sys : System} (id : Nat) (cr : BitVec 1) (t : FrameType) (pf : BitVec 1) {content : List Byte}
  (onFailure : System → System)

/-- A frame whose content fits is written. -/
theorem sendFrame_of_le (sys : System) (hle : content.length ≤ MAX_LEN) :
    ∃ (b : State) (w : List Byte), b.fb = sys.block.fb ∧ encodeFrame (channelFrame id cr t pf content) = .ok w ∧
      sys.sendFrame id cr t pf content onFailure = System.writeSerial { sys with block := b } w onFailure := by
  obtain ⟨b, hb, ⟨w, hw, hsend⟩ | ⟨st, hst, -, -⟩⟩ := sendFrame_cases sys id cr t pf content onFailure
  · exact ⟨b, w, hb, hw, hsend⟩
  · obtain ⟨w, hw⟩ := encodeFrame_of_le (f := channelFrame id cr t pf content) hle
    cases hst.symm.trans hw

/-- Where no write fails it is on the serial stream, and nothing else of the host changes. -/
theorem sendFrame_written (hle : content.length ≤ MAX_LEN) (hw : sys.host.NoWriteFails) :
    ∃ (b : State) (w : List Byte), b.fb = sys.block.fb ∧ encodeFrame (channelFrame id cr t pf content) = .ok w ∧
      sys.sendFrame id cr t pf content onFailure =
        { host := { sys.host with
            serialOut := sys.host.serialOut ++ w, writeAnswers := sys.host.writeAnswers.tail }
          block := b } := by
  obtain ⟨b, w, hb, hwire, hsend⟩ := sendFrame_of_le id cr t pf onFailure sys hle
  exact ⟨b, w, hb, hwire, by rw [hsend, writeSerial_written (sys := { sys with block := b }) hw.head_ne]⟩

end

/-- Where a write outside the steady state fails, it is noted and nothing the statements speak of changes (log entry
20). -/
theorem sendFrame_noteFailure_keeps (sys : System) (id : Nat) (cr : BitVec 1) (t : FrameType) (pf : BitVec 1)
    (content : List Byte) :
    (sys.sendFrame id cr t pf content System.noteFailure).host.channels = sys.host.channels ∧
    (sys.sendFrame id cr t pf content System.noteFailure).host.delivered = sys.host.delivered ∧
    (sys.sendFrame id cr t pf content System.noteFailure).block.fb = sys.block.fb := by
  obtain ⟨b, hb, ⟨w, -, hsend⟩ | ⟨st, -, -, hsend⟩⟩ := sendFrame_cases sys id cr t pf content System.noteFailure
  · rw [hsend]
    by_cases hfail : sys.host.writeAnswers.head? = some .failed
    · rw [writeSerial_failed (sys := { sys with block := b }) hfail]
      exact ⟨rfl, rfl, hb⟩
    · rw [writeSerial_written (sys := { sys with block := b }) hfail]
      exact ⟨rfl, rfl, hb⟩
  · rw [hsend]
    exact ⟨rfl, rfl, hb⟩

/-! ### Sequences of work -/

theorem whileWorking_cons {α : Type} (work : System → α → System) (a : α) (l : List α) {sys : System}
    (h : sys.host.workEnded = false) :
    System.whileWorking work (a :: l) sys = System.whileWorking work l (work sys a) := by
  simp [System.whileWorking, h]

/-- Work that never ends early is a fold. -/
theorem whileWorking_eq_foldl {α : Type} {work : System → α → System} {P : System → Prop} {l : List α}
    (working : ∀ sys, P sys → sys.host.workEnded = false) (step : ∀ sys, P sys → ∀ a ∈ l, P (work sys a))
    {sys : System} (h : P sys) : System.whileWorking work l sys = l.foldl work sys := by
  induction l generalizing sys with
  | nil => rfl
  | cons a l ih =>
    rw [whileWorking_cons work a l (working sys h), List.foldl_cons]
    exact ih (fun sys hsys b hb => step sys hsys b (List.mem_cons_of_mem a hb)) (step sys h a List.mem_cons_self)

/-- If each piece of work writes some bytes to the serial stream, their sequence writes all of them in order. -/
theorem foldl_writes {α : Type} {work : System → α → System} {P : System → Prop} {R : α → List Byte → Prop}
    {l : List α}
    (step : ∀ sys, P sys → ∀ a ∈ l, P (work sys a) ∧
      ∃ w, R a w ∧ (work sys a).host.serialOut = sys.host.serialOut ++ w)
    {sys : System} (h : P sys) :
    P (l.foldl work sys) ∧ ∃ wires, List.Forall₂ R l wires ∧
      (l.foldl work sys).host.serialOut = sys.host.serialOut ++ wires.flatten := by
  induction l generalizing sys with
  | nil => exact ⟨h, [], .nil, by simp⟩
  | cons a l ih =>
    obtain ⟨hP, w, hw, hout⟩ := step sys h a List.mem_cons_self
    obtain ⟨hP', wires, hwires, hout'⟩ :=
      ih (fun sys hsys b hb => step sys hsys b (List.mem_cons_of_mem a hb)) hP
    exact ⟨hP', w :: wires, .cons hw hwires, by simp [hout', hout]⟩

end Sys2Proof.Machine
end

section
/-! Start-up, shutdown and cancellation (44_host_usage.md R142, R143, R147 to R150): what is signalled to every channel,
and what the channel table is afterwards. -/

namespace Sys2Proof.Machine

/-! ### Changing entries of the channel table one by one -/

/-- A change of one entry that a view of the table does not see. -/
theorem map_modify_of_unseen {β : Type} {view : Channel → β} {change : Channel → Channel}
    (h : ∀ c, view (change c) = view c) (channels : List Channel) (id : Nat) :
    (channels.modify id change).map view = channels.map view := by
  refine List.ext_getElem? fun i => ?_
  simp only [List.getElem?_map, List.getElem?_modify]
  cases channels[i]? with
  | none => simp
  | some c => by_cases hi : id = i <;> simp [hi, h]

/-- A change that is settled after the first time, made at each of some ids in turn. -/
theorem getElem?_foldl_modify {change : Channel → Channel} (h : ∀ c, change (change c) = change c) (ids : List Nat)
    (channels : List Channel) (i : Nat) :
    (ids.foldl (fun cs id => cs.modify id change) channels)[i]? =
      (channels[i]?).map (fun c => if i ∈ ids then change c else c) := by
  induction ids generalizing channels with
  | nil => simp
  | cons id ids ih =>
    rw [List.foldl_cons, ih, List.getElem?_modify]
    cases channels[i]? with
    | none => rfl
    | some c =>
      by_cases hid : id = i
      · simp [hid, h]
      · simp [hid, Ne.symm hid]

/-- A well-formed host has at most 64 channels and disconnects every non-zero id once (R1, R141, R148). -/
theorem wellFormed_iff {p : HostParams} : p.WellFormed = true ↔
    p.nChannels ≤ 64 ∧ p.discOrder.Perm ((List.range p.nChannels).filter (· ≠ 0)) := by
  rw [HostParams.WellFormed, Bool.and_eq_true, decide_eq_true_eq, decide_eq_true_eq]
  exact Iff.rfl

/-! ### Start-up (R142, R143, R147) -/

/-- A channel that start-up has opened. -/
def Channel.markOpen (c : Channel) : Channel := { c with state := .opened }

/-- Whatever the write answers, the id's channel is OPEN. -/
theorem openChannel_channels (p : HostParams) (sys : System) (id : Nat) :
    (sys.openChannel p id).host.channels = sys.host.channels.modify id Channel.markOpen := by
  obtain ⟨hchannels, -⟩ :=
    sendFrame_noteFailure_keeps sys id p.crCommand .sabm 1#1 [p.placeholder]
  simp only [System.openChannel, setChannelState_host, hchannels, List.modify_modify_eq]
  rfl

theorem openChannel_fb (p : HostParams) (sys : System) (id : Nat) : (sys.openChannel p id).block.fb = sys.block.fb := by
  obtain ⟨-, -, hfb⟩ := sendFrame_noteFailure_keeps sys id p.crCommand .sabm 1#1 [p.placeholder]
  exact hfb

/-- The SABM frame of start-up (R142). -/
theorem openChannel_writes (p : HostParams) {sys : System} (hw : sys.host.NoWriteFails) (id : Nat) :
    (sys.openChannel p id).host.NoWriteFails ∧
      ∃ w, encodeFrame (channelFrame id p.crCommand .sabm 1#1 [p.placeholder]) = .ok w ∧
        (sys.openChannel p id).host.serialOut = sys.host.serialOut ++ w := by
  obtain ⟨b, w, -, hwire, hsend⟩ := sendFrame_written id p.crCommand .sabm 1#1 (content := [p.placeholder])
    System.noteFailure (by decide : 1 ≤ MAX_LEN) hw
  refine ⟨hw.of_tail ?_, w, hwire, ?_⟩ <;> simp [System.openChannel, hsend]

/-- Start-up opens the ids of the table in order. -/
theorem startUp_channels (p : HostParams) (sys : System) :
    (sys.startUp p).host.channels =
      (List.range p.nChannels).foldl (fun cs id => cs.modify id Channel.markOpen) sys.host.channels := by
  have hfold : ∀ (ids : List Nat) (sys : System), (ids.foldl (System.openChannel p) sys).host.channels =
      ids.foldl (fun cs id => cs.modify id Channel.markOpen) sys.host.channels := by
    intro ids
    induction ids with
    | nil => exact fun _ => rfl
    | cons id ids ih => exact fun sys => by rw [List.foldl_cons, ih, openChannel_channels, List.foldl_cons]
  exact hfold _ sys

theorem startUp_fb (p : HostParams) (sys : System) : (sys.startUp p).block.fb = sys.block.fb :=
  List.foldlRecOn (motive := fun sys' => sys'.block.fb = sys.block.fb) _ _ rfl
    fun sys' hfb id _ => (openChannel_fb p sys' id).trans hfb

/-- Settles O51: the entries by `getElem?_foldl_modify`, the frames by `foldl_writes` over the ids. -/
theorem startUpSendsSabmToEveryChannel : Obligations.StartUpSendsSabmToEveryChannel := by
  unfold Obligations.StartUpSendsSabmToEveryChannel
  intro p answers hp
  obtain ⟨hcount, -⟩ := wellFormed_iff.1 hp
  refine ⟨?_, startUp_fb p _, fun hanswers => ?_⟩
  · refine List.ext_getElem? fun i => ?_
    rw [startUp_channels, getElem?_foldl_modify (change := Channel.markOpen) fun _ => rfl]
    by_cases hi : i < p.nChannels
    · simp [System.created, hi, Channel.markOpen, Channel.fresh]
    · simp [System.created, hi]
  · obtain ⟨-, wires, hwires, hout⟩ := foldl_writes (work := System.openChannel p)
      (P := fun sys => sys.host.NoWriteFails) (l := List.range p.nChannels)
      (fun sys hw id _ => openChannel_writes p hw id) (sys := System.created p answers) hanswers
    obtain ⟨hlength, hget⟩ := List.forall₂_iff_get.1 hwires
    rw [List.length_range] at hlength
    refine ⟨wires, hlength.symm, hout.trans (List.nil_append _), fun id hid => ?_⟩
    have hwire := hget id (by simpa using hid) (by omega)
    rw [List.get_eq_getElem, List.get_eq_getElem, List.getElem_range] at hwire
    exact ⟨_, channelFrame_address_toNat (by omega) p.crCommand .sabm 1#1 [p.placeholder], _,
      List.getElem?_eq_getElem (by omega), hwire⟩

/-! ### Shutdown (R148, R149) -/

/-- One step of the signalling of shutdown: DISC, and the channel is CLOSING (R147, R148). -/
def System.disconnect (p : HostParams) (sys : System) (id : Nat) : System :=
  (sys.sendFrame id p.crDisc .disc p.pfDisc [p.placeholder] System.noteFailure).setChannelState id .closing

/-- The system after the DISC frames of shutdown. -/
def System.disconnected (p : HostParams) (sys : System) : System := p.discOrder.foldl (System.disconnect p) sys

/-- A channel that shutdown has closed and whose endpoint it has released. -/
def Channel.release (c : Channel) : Channel := { c with state := .closed, bound := false }

/-- Shutdown is the DISC frames, the close-down frame and the release. -/
theorem shutDown_eq (p : HostParams) (sys : System) :
    sys.shutDown p =
      { (sys.disconnected p).sendFrame 0 p.crClose .uih p.pfClose p.cldBytes System.noteFailure with
        host := { ((sys.disconnected p).sendFrame 0 p.crClose .uih p.pfClose p.cldBytes System.noteFailure).host with
          channels := ((sys.disconnected p).sendFrame 0 p.crClose .uih p.pfClose p.cldBytes
            System.noteFailure).host.channels.map Channel.release
          running := false
          sessionClosed := true } } := rfl

/-- Whatever the writes answer, the DISC frames change only states of channels, and deliver nothing. -/
theorem disconnected_keeps (p : HostParams) (sys : System) :
    (sys.disconnected p).host.channels.map Channel.release = sys.host.channels.map Channel.release ∧
    (sys.disconnected p).host.delivered = sys.host.delivered ∧
    (sys.disconnected p).block.fb = sys.block.fb := by
  refine List.foldlRecOn (motive := fun sys' : System =>
    sys'.host.channels.map Channel.release = sys.host.channels.map Channel.release ∧
      sys'.host.delivered = sys.host.delivered ∧ sys'.block.fb = sys.block.fb) _ _ ⟨rfl, rfl, rfl⟩ ?_
  rintro sys' ⟨hchannels, hdelivered, hfb⟩ id -
  obtain ⟨hchannels', hdelivered', hfb'⟩ :=
    sendFrame_noteFailure_keeps sys' id p.crDisc .disc p.pfDisc [p.placeholder]
  refine ⟨?_, hdelivered'.trans hdelivered, hfb'.trans hfb⟩
  have hstate : ∀ c : Channel, Channel.release { c with state := .closing } = c.release := fun _ => rfl
  exact (map_modify_of_unseen hstate _ id).trans (hchannels' ▸ hchannels)

theorem shutDown_channels (p : HostParams) (sys : System) :
    (sys.shutDown p).host.channels = sys.host.channels.map Channel.release := by
  obtain ⟨hchannels, -⟩ := sendFrame_noteFailure_keeps (sys.disconnected p) 0 p.crClose .uih p.pfClose p.cldBytes
  obtain ⟨hreleased, -⟩ := disconnected_keeps p sys
  rw [shutDown_eq, ← hreleased, ← hchannels]

theorem shutDown_delivered (p : HostParams) (sys : System) :
    (sys.shutDown p).host.delivered = sys.host.delivered := by
  obtain ⟨-, hdelivered, -⟩ := sendFrame_noteFailure_keeps (sys.disconnected p) 0 p.crClose .uih p.pfClose p.cldBytes
  obtain ⟨-, hdelivered', -⟩ := disconnected_keeps p sys
  exact hdelivered.trans hdelivered'

theorem shutDown_fb (p : HostParams) (sys : System) : (sys.shutDown p).block.fb = sys.block.fb := by
  obtain ⟨-, -, hfb⟩ := sendFrame_noteFailure_keeps (sys.disconnected p) 0 p.crClose .uih p.pfClose p.cldBytes
  obtain ⟨-, -, hfb'⟩ := disconnected_keeps p sys
  exact hfb.trans hfb'

/-- The DISC frame of one id (R148). -/
theorem disconnect_writes (p : HostParams) {sys : System} (hw : sys.host.NoWriteFails) (id : Nat) :
    (sys.disconnect p id).host.NoWriteFails ∧
      ∃ w, encodeFrame (channelFrame id p.crDisc .disc p.pfDisc [p.placeholder]) = .ok w ∧
        (sys.disconnect p id).host.serialOut = sys.host.serialOut ++ w := by
  obtain ⟨b, w, -, hwire, hsend⟩ := sendFrame_written id p.crDisc .disc p.pfDisc (content := [p.placeholder])
    System.noteFailure (by decide : 1 ≤ MAX_LEN) hw
  refine ⟨hw.of_tail ?_, w, hwire, ?_⟩ <;> simp [System.disconnect, hsend]

/-- What shutdown writes where no write fails: the DISC frames in order and then the close-down frame (R148, R149). -/
theorem shutDown_writes (p : HostParams) {sys : System} (hcld : p.cldBytes.length ≤ MAX_LEN)
    (hw : sys.host.NoWriteFails) :
    ∃ (wires : List (List Byte)) (closing : List Byte),
      (sys.shutDown p).host.serialOut = sys.host.serialOut ++ wires.flatten ++ closing ∧
      List.Forall₂ (fun id w => encodeFrame (channelFrame id p.crDisc .disc p.pfDisc [p.placeholder]) = .ok w)
        p.discOrder wires ∧
      encodeFrame (channelFrame 0 p.crClose .uih p.pfClose p.cldBytes) = .ok closing := by
  obtain ⟨hw', wires, hwires, hout⟩ := foldl_writes (work := System.disconnect p)
    (P := fun sys => sys.host.NoWriteFails) (l := p.discOrder)
    (fun sys hw id _ => disconnect_writes p hw id) hw
  obtain ⟨b, closing, -, hclosing, hsend⟩ := sendFrame_written (sys := sys.disconnected p) 0 p.crClose .uih p.pfClose
    System.noteFailure hcld hw'
  refine ⟨wires, closing, ?_, hwires, hclosing⟩
  rw [shutDown_eq, hsend, ← hout]
  rfl

/-- The DISC order of a well-formed host names channel ids only (R141, R148). -/
theorem le_of_mem_discOrder {p : HostParams} (hp : p.WellFormed = true) {id : Nat} (hid : id ∈ p.discOrder) :
    id ≤ 63 := by
  obtain ⟨hcount, horder⟩ := wellFormed_iff.1 hp
  have hmem := horder.mem_iff.1 hid
  simp only [List.mem_filter, List.mem_range] at hmem
  omega

/-- Settles O53: `shutDown_writes`, with each frame's header as numbers, and what shutdown leaves. -/
theorem shutDownSendsDiscThenCloseDown : Obligations.ShutDownSendsDiscThenCloseDown := by
  unfold Obligations.ShutDownSendsDiscThenCloseDown
  intro p sys hp hcld
  refine ⟨fun hanswers => ?_, rfl, rfl, shutDown_channels p sys, shutDown_delivered p sys, shutDown_fb p sys, rfl⟩
  obtain ⟨wires, closing, hout, hwires, hclosing⟩ := shutDown_writes p hcld hanswers
  obtain ⟨a, c, ha, hc, hclosing'⟩ := channelFrame_header (Nat.zero_le 63) hclosing
  refine ⟨wires, closing, hout, ?_, a, c, by simpa using ha, hc, hclosing'⟩
  refine (List.forall₂_and_left _ _).2 ⟨fun id hid => le_of_mem_discOrder hp hid, hwires⟩ |>.imp ?_
  rintro id w ⟨hid, hwire⟩
  exact channelFrame_header hid hwire

/-! ### Cancellation (R150) -/

theorem iterate_cancelled (p : HostParams) {sys : System} (hrun : sys.host.running = true)
    (hcancel : sys.host.cancelled = true) (ready : List LoopEvent) :
    sys.iterate p ready = (sys.shutDown p).exitProcess := by
  simp [System.iterate, hrun, hcancel]

theorem iterate_stopped (p : HostParams) {sys : System} (hstopped : sys.host.running = false) (ready : List LoopEvent) :
    sys.iterate p ready = sys := by
  simp [System.iterate, hstopped]

/-- Settles O56: a cancelled iteration is shutdown and the end of the process. -/
theorem cancellationIsObservedAtTheTop : Obligations.CancellationIsObservedAtTheTop := by
  unfold Obligations.CancellationIsObservedAtTheTop
  intro p sys ready
  refine ⟨fun hrun hcancel => ?_, fun hstopped => iterate_stopped p hstopped ready⟩
  rw [iterate_cancelled p hrun hcancel]
  exact ⟨rfl, rfl, rfl, rfl, shutDown_delivered p sys, shutDown_fb p sys⟩

end Sys2Proof.Machine
end

section
/-! The AT exchange before the loop (44_host_usage.md R152). -/

namespace Sys2Proof.Machine

/-- The search for a text is that of the statement. -/
theorem containsText_iff (needle text : List Byte) : containsText needle text = true ↔ needle <:+: text := by
  induction text with
  | nil => simp [containsText]
  | cons b rest ih => simp [containsText, ih, List.infix_cons_iff]

/-- A response that decides nothing. -/
def Undecided (text : List Byte) : Prop := ¬ okText <:+: text ∧ ¬ errorText <:+: text

/-- A wait whose response decides nothing uses one retry up. -/
theorem atCommand_undecided (okFirst : Bool) (n : Nat) {a : Option (List Byte)} (rest : List (Option (List Byte)))
    (h : ∀ text, some text = a → Undecided text) :
    atCommand okFirst (n + 1) (a :: rest) = atCommand okFirst n rest := by
  cases a with
  | none => rfl
  | some text =>
    obtain ⟨hok, herror⟩ := h text rfl
    rw [← containsText_iff] at hok herror
    simp [atCommand, hok, herror]

theorem atCommand_success {okFirst : Bool} (n : Nat) {text : List Byte} (rest : List (Option (List Byte)))
    (hok : okText <:+: text) (h : okFirst = true ∨ ¬ errorText <:+: text) :
    atCommand okFirst (n + 1) (some text :: rest) = .success := by
  rw [← containsText_iff] at hok h
  have hwins : (okFirst || !containsText errorText text) = true := by simpa using h
  simp [atCommand, hok, hwins]

theorem atCommand_commandFailed {okFirst : Bool} (n : Nat) {text : List Byte} (rest : List (Option (List Byte)))
    (herror : errorText <:+: text) (h : okFirst = false ∨ ¬ okText <:+: text) :
    atCommand okFirst (n + 1) (some text :: rest) = .commandFailed := by
  rw [← containsText_iff] at herror h
  have hloses : (containsText okText text && okFirst) = false := by
    rcases h with h | h <;> simp [h]
  simp [atCommand, herror, hloses]

/-- Responses that decide nothing use up one retry each. -/
theorem atCommand_append (okFirst : Bool) {before : List (Option (List Byte))}
    (h : ∀ text, some text ∈ before → Undecided text) (n : Nat) (after : List (Option (List Byte))) :
    atCommand okFirst (before.length + n) (before ++ after) = atCommand okFirst n after := by
  induction before with
  | nil => simp
  | cons a before ih =>
    rw [List.length_cons, Nat.add_right_comm, List.cons_append,
      atCommand_undecided okFirst _ _ fun text ht => h text (ht ▸ List.mem_cons_self)]
    exact ih fun text ht => h text (List.mem_cons_of_mem a ht)

/-- If they use up all of them, the exchange times out, whatever follows. -/
theorem atCommand_timedOut (okFirst : Bool) {before : List (Option (List Byte))}
    (h : ∀ text, some text ∈ before → Undecided text) {retries : Nat} (hr : retries ≤ before.length)
    (after : List (Option (List Byte))) : atCommand okFirst retries (before ++ after) = .timedOut := by
  have hused := atCommand_append okFirst (before := before.take retries)
    (fun text ht => h text (List.mem_of_mem_take ht)) 0 (before.drop retries ++ after)
  rwa [← List.append_assoc, List.take_append_drop, List.length_take_of_le hr, Nat.add_zero] at hused

theorem atCommand_no_more_responses (okFirst : Bool) (n : Nat) : atCommand okFirst n [] = .timedOut := by
  cases n <;> rfl

/-- Settles O57: skip what decides nothing, and look at the first response that does. -/
theorem atCommandResult : Obligations.AtCommandResult := by
  unfold Obligations.AtCommandResult
  intro okFirst retries before after hbefore
  refine ⟨fun hlt text => ?_, fun hr => atCommand_timedOut okFirst hbefore hr after, ?_⟩
  · obtain ⟨n, rfl⟩ := Nat.exists_eq_add_of_lt hlt
    rw [Nat.add_assoc, atCommand_append okFirst hbefore]
    exact ⟨atCommand_success n after, atCommand_commandFailed n after⟩
  · rcases Nat.le_total retries before.length with hr | hr
    · simpa using atCommand_timedOut okFirst hbefore hr []
    · obtain ⟨n, rfl⟩ := Nat.exists_eq_add_of_le hr
      simpa [atCommand_no_more_responses] using atCommand_append okFirst hbefore n []

end Sys2Proof.Machine
end

section
/-! The steady state (44_host_usage.md R140, R144 to R146, R151): a serial read routed, an endpoint read wrapped, and
what a transport error ends. -/

namespace Sys2Proof.Machine

/-! ### One iteration (R150) -/

/-- The system at the top of an iteration: no transport error has ended its work yet. -/
def System.startWork (sys : System) : System := { sys with host := { sys.host with workEnded := false } }

/-- An iteration of a running loop that is not cancelled serves what the wait reported. -/
theorem iterate_serving (p : HostParams) {sys : System} (hrun : sys.host.running = true)
    (hcancel : sys.host.cancelled = false) (ready : List LoopEvent) :
    sys.iterate p ready = System.whileWorking (System.serve p) ready sys.startWork := by
  simp [System.iterate, System.startWork, hrun, hcancel]

/-! ### Routing (R144, R145) -/

theorem deliver_fb (p : HostParams) (sys : System) (id : Nat) (content : List Byte) :
    (sys.deliver p id content).block.fb = sys.block.fb := by
  rcases channel_cases sys.host.channels id with ⟨c, hc, hbound, hfailed⟩ | hunknown | ⟨c, hc, hbound, hfailed⟩
  · rw [deliver_inService p content hc hbound hfailed]
    by_cases h : sys.host.writeAnswers.head? = some .failed
    · rw [writeEndpoint_failed h, ioFailure_block]
    · rw [writeEndpoint_written h]
  · rw [deliver_unknown p content hunknown, logEntry_block]
  · rw [deliver_outOfService p content hc hbound hfailed, logEntry_block]

theorem route_fb (p : HostParams) (sys : System) (f : Frame) : (sys.route p f).block.fb = sys.block.fb := by
  obtain ⟨b, hb, ⟨-, hroute⟩ | ⟨_, -, -, hroute⟩ | ⟨_, -, -, hroute⟩⟩ := route_cases p sys f
  · rw [hroute, logEntry_block, hb]
  · rw [hroute, hb]
  · rw [hroute, deliver_fb, hb]

/-- Settles O52: routing by the kind of the frame, delivery by the kind of the channel. -/
theorem routingDeliversOrDrops : Obligations.RoutingDeliversOrDrops := by
  unfold Obligations.RoutingDeliversOrDrops
  intro p sys f
  refine ⟨route_fb p sys f, fun hpayload => ?_, fun hsignalling => ?_, fun huntyped => ?_⟩
  · obtain ⟨b, -, hroute⟩ := route_payload p sys f hpayload
    refine ⟨fun c hc hbound hfailed hwrite => ?_, fun hunknown => ?_⟩
    · rw [hroute, deliver_inService (sys := { sys with block := b }) p _ hc hbound hfailed,
        writeEndpoint_written (sys := { sys with block := b }) hwrite]
    · rw [hroute, deliver_unknown (sys := { sys with block := b }) p _ hunknown, logEntry_host]
  · obtain ⟨b, -, hroute⟩ := route_signalling p sys f hsignalling
    rw [hroute]
  · rw [← frameTypeOf_isSome_iff] at huntyped
    obtain ⟨b, -, hroute⟩ := route_untyped p sys f (by simpa using huntyped)
    rw [hroute, logEntry_host]

/-! ### The frames of a serial read in order (R140, R144) -/

/-- The host after some frames have been routed and no write has failed: what the statements call deliveries and
complaints, and one answer used up for each delivery. -/
def HostState.routed (h : HostState) (fs : List Frame) : HostState :=
  { h with
    delivered := h.delivered ++ h.deliveries fs
    log := h.log ++ h.complaints fs
    writeAnswers := h.writeAnswers.drop (h.deliveries fs).length }

theorem deliveries_cons (h : HostState) (f : Frame) (fs : List Frame) :
    h.deliveries (f :: fs) = h.deliveries [f] ++ h.deliveries fs :=
  List.filterMap_append (l := [f])

theorem complaints_cons (h : HostState) (f : Frame) (fs : List Frame) :
    h.complaints (f :: fs) = h.complaints [f] ++ h.complaints fs :=
  List.filterMap_append (l := [f])

theorem routed_nil (h : HostState) : h.routed [] = h := by
  simp [HostState.routed, HostState.deliveries, HostState.complaints]

theorem routed_routed (h : HostState) (f : Frame) (fs : List Frame) :
    (h.routed [f]).routed fs = h.routed (f :: fs) := by
  have hd : (h.routed [f]).deliveries fs = h.deliveries fs := deliveries_congr rfl fs
  have hc : (h.routed [f]).complaints fs = h.complaints fs := complaints_congr rfl fs
  unfold HostState.routed at hd hc ⊢
  simp only [hd, hc, deliveries_cons h f fs, complaints_cons h f fs, List.append_assoc, List.drop_drop,
    List.length_append]

/-! What one frame adds to the deliveries and complaints. -/

section
variable {h : HostState} {f : Frame}

theorem deliveries_inService {c : Channel} (hf : f.control ∈ ([0xEF, 0xFF, 0x03, 0x13] : List Byte))
    (hc : h.channels[f.address.toNat / 4]? = some c) (hbound : c.bound = true) (hfailed : c.failed = false) :
    h.deliveries [f] = [(f.address.toNat / 4, f.content)] ∧ h.complaints [f] = [] := by
  simp only [HostState.deliveries, HostState.complaints, List.filterMap_cons, List.filterMap_nil, hf, hc]
  simp [hbound, hfailed]

theorem deliveries_unknown (hf : f.control ∈ ([0xEF, 0xFF, 0x03, 0x13] : List Byte))
    (hc : ∀ c, h.channels[f.address.toNat / 4]? = some c → c.bound = false) :
    h.deliveries [f] = [] ∧ h.complaints [f] = [.unknownChannel (f.address.toNat / 4)] := by
  simp only [HostState.deliveries, HostState.complaints, List.filterMap_cons, List.filterMap_nil, hf]
  cases hc' : h.channels[f.address.toNat / 4]? with
  | none => simp
  | some c => simp [hc c hc']

theorem deliveries_outOfService {c : Channel} (hf : f.control ∈ ([0xEF, 0xFF, 0x03, 0x13] : List Byte))
    (hc : h.channels[f.address.toNat / 4]? = some c) (hbound : c.bound = true) (hfailed : c.failed = true) :
    h.deliveries [f] = [] ∧ h.complaints [f] = [.channelFailed (f.address.toNat / 4)] := by
  simp only [HostState.deliveries, HostState.complaints, List.filterMap_cons, List.filterMap_nil, hf, hc]
  simp [hbound, hfailed]

theorem deliveries_signalling
    (hf : f.control ∈ ([0x2F, 0x3F, 0x63, 0x73, 0x0F, 0x1F, 0x43, 0x53] : List Byte)) :
    h.deliveries [f] = [] ∧ h.complaints [f] = [] := by
  obtain ⟨-, hpayload⟩ := (mem_signalling_iff f.control).1 hf
  simp only [HostState.deliveries, HostState.complaints, List.filterMap_cons, List.filterMap_nil, if_pos hf,
    hpayload, false_and, if_false, and_self]

theorem deliveries_untyped (hf : frameTypeOf f.control = none) :
    h.deliveries [f] = [] ∧ h.complaints [f] = [.unsupportedFrameType f.control] := by
  have hpayload : f.control ∉ ([0xEF, 0xFF, 0x03, 0x13] : List Byte) := by simp only [mem_payload_iff, hf]; simp
  have hsignalling : f.control ∉ ([0x2F, 0x3F, 0x63, 0x73, 0x0F, 0x1F, 0x43, 0x53] : List Byte) := by
    simp only [mem_signalling_iff, hf]; simp
  simp only [HostState.deliveries, HostState.complaints, List.filterMap_cons, List.filterMap_nil,
    if_neg hsignalling, hpayload, false_and, if_false, and_self]

/-- A frame that is not delivered adds its complaint to the log. -/
theorem routed_of_no_delivery (hd : h.deliveries [f] = []) :
    h.routed [f] = { h with log := h.log ++ h.complaints [f] } := by
  simp [HostState.routed, hd]

end

/-- A frame is one write to an endpoint, or is settled without one. -/
theorem route_outcome (p : HostParams) (sys : System) (f : Frame) :
    (sys.host.deliveries [f] = [] ∧ (sys.route p f).host = sys.host.routed [f]) ∨
    ∃ (b : State) (id : Nat) (content : List Byte), sys.host.deliveries [f] = [(id, content)] ∧
      sys.host.complaints [f] = [] ∧
      sys.route p f = System.writeEndpoint { sys with block := b } id content (System.ioFailure p (some id)) := by
  by_cases hpayload : f.control ∈ ([0xEF, 0xFF, 0x03, 0x13] : List Byte)
  · obtain ⟨b, -, hroute⟩ := route_payload p sys f hpayload
    rcases channel_cases sys.host.channels (f.address.toNat / 4) with
      ⟨c, hc, hbound, hfailed⟩ | hunknown | ⟨c, hc, hbound, hfailed⟩
    · obtain ⟨hd, hcomplaints⟩ := deliveries_inService hpayload hc hbound hfailed
      exact .inr ⟨b, _, _, hd, hcomplaints,
        hroute.trans (deliver_inService (sys := { sys with block := b }) p _ hc hbound hfailed)⟩
    · obtain ⟨hd, hcomplaints⟩ := deliveries_unknown hpayload hunknown
      refine .inl ⟨hd, ?_⟩
      rw [hroute, deliver_unknown (sys := { sys with block := b }) p _ hunknown, routed_of_no_delivery hd, hcomplaints,
        logEntry_host]
    · obtain ⟨hd, hcomplaints⟩ := deliveries_outOfService hpayload hc hbound hfailed
      refine .inl ⟨hd, ?_⟩
      rw [hroute, deliver_outOfService (sys := { sys with block := b }) p _ hc hbound hfailed, routed_of_no_delivery hd,
        hcomplaints, logEntry_host]
  · by_cases hnone : frameTypeOf f.control = none
    · obtain ⟨hd, hcomplaints⟩ := deliveries_untyped (h := sys.host) hnone
      obtain ⟨b, -, hroute⟩ := route_untyped p sys f hnone
      exact .inl ⟨hd, by rw [hroute, routed_of_no_delivery hd, hcomplaints, logEntry_host]⟩
    · have hsignalling := (mem_signalling_iff f.control).2 ⟨hnone, hpayload⟩
      obtain ⟨hd, hcomplaints⟩ := deliveries_signalling (h := sys.host) hsignalling
      obtain ⟨b, -, hroute⟩ := route_signalling p sys f hsignalling
      exact .inl ⟨hd, by rw [hroute, routed_of_no_delivery hd, hcomplaints, List.append_nil]⟩

/-- Where the next write does not fail, routing a frame is what `routed` says. -/
theorem route_written (p : HostParams) {sys : System} (hw : sys.host.writeAnswers.head? ≠ some .failed) (f : Frame) :
    (sys.route p f).host = sys.host.routed [f] := by
  rcases route_outcome p sys f with ⟨-, hroute⟩ | ⟨b, id, content, hd, hc, hroute⟩
  · exact hroute
  · rw [hroute, writeEndpoint_written (sys := { sys with block := b }) hw]
    simp [HostState.routed, hd, hc]

theorem routed_noWriteFails {h : HostState} (hw : h.NoWriteFails) (fs : List Frame) : (h.routed fs).NoWriteFails :=
  fun a ha => hw a (List.mem_of_mem_drop ha)

/-- If no write fails, all frames are routed. -/
theorem whileWorking_route_written (p : HostParams) (fs : List Frame) {sys : System} (hw : sys.host.NoWriteFails)
    (hworking : sys.host.workEnded = false) :
    (System.whileWorking (System.route p) fs sys).host = sys.host.routed fs := by
  induction fs generalizing sys with
  | nil => exact (routed_nil sys.host).symm
  | cons f fs ih =>
    have hroute := route_written p hw.head_ne f
    rw [whileWorking_cons _ f fs hworking, ih (hroute ▸ routed_noWriteFails hw [f]) (hroute ▸ hworking), hroute,
      routed_routed]

/-- If the write after the first `k` fails, the first `k` deliveries are made, and the work ends there. -/
theorem whileWorking_route_failed (p : HostParams) (fs : List Frame) {sys : System} {k : Nat}
    {later : List WriteAnswer} (hw : sys.host.writeAnswers = List.replicate k .written ++ .failed :: later)
    (hworking : sys.host.workEnded = false) :
    (System.whileWorking (System.route p) fs sys).host.delivered =
      sys.host.delivered ++ (sys.host.deliveries fs).take k ∧
    ((System.whileWorking (System.route p) fs sys).host.workEnded = true ↔ k < (sys.host.deliveries fs).length) := by
  induction fs generalizing sys k with
  | nil => simp [HostState.deliveries, hworking]
  | cons f fs ih =>
    have hcongr : (sys.host.routed [f]).deliveries fs = sys.host.deliveries fs := deliveries_congr rfl fs
    rw [whileWorking_cons _ f fs hworking, deliveries_cons]
    rcases route_outcome p sys f with ⟨hd, hroute⟩ | ⟨b, id, content, hd, hc, hroute⟩
    · have hanswers : (sys.host.routed [f]).writeAnswers = sys.host.writeAnswers := by simp [HostState.routed, hd]
      have hdelivered : (sys.host.routed [f]).delivered = sys.host.delivered := by simp [HostState.routed, hd]
      have hrest := ih (sys := sys.route p f) (k := k) (by rw [hroute, hanswers, hw]) (by rw [hroute]; exact hworking)
      rw [hroute, hcongr, hdelivered] at hrest
      rwa [hd, List.nil_append]
    · cases k with
      | zero =>
        have hfailed : sys.host.writeAnswers.head? = some .failed := by rw [hw]; rfl
        have hfails := failedWrite_failsAt p (some id) sys b
        rw [hroute, writeEndpoint_failed (sys := { sys with block := b }) hfailed,
          whileWorking_ended _ _ hfails.workEnded]
        exact ⟨by simpa using hfails.delivered, by simpa [hd] using hfails.workEnded⟩
      | succ k =>
        have hwritten : sys.host.writeAnswers.head? ≠ some .failed := by simp [hw, List.replicate_succ]
        have hroute' := route_written p hwritten f
        have hanswers : (sys.host.routed [f]).writeAnswers = List.replicate k .written ++ .failed :: later := by
          simp [HostState.routed, hd, hw, List.replicate_succ]
        have hrest := ih (sys := sys.route p f) (k := k) (by rw [hroute', hanswers]) (by rw [hroute']; exact hworking)
        rw [hroute', hcongr] at hrest
        simpa [HostState.routed, hd] using hrest

theorem whileWorking_route_fb (p : HostParams) (fs : List Frame) (sys : System) :
    (System.whileWorking (System.route p) fs sys).block.fb = sys.block.fb :=
  whileWorking_keeps (P := fun sys' => sys'.block.fb = sys.block.fb)
    (fun sys' f _ hfb => (route_fb p sys' f).trans hfb) fs rfl

/-- Settles O60: ingest and drain, then the frames by `whileWorking_route_written` or `whileWorking_route_failed`. -/
theorem serialReadIsDrainedAndRouted : Obligations.SerialReadIsDrainedAndRouted := by
  unfold Obligations.SerialReadIsDrainedAndRouted
  intro p sys bytes hrun hcancel
  obtain ⟨t, hingested, -, hingest⟩ := ingest_eq sys.startWork bytes
  obtain ⟨u, fs, hdrained, hframes, hinbound⟩ := inbound_eq p sys.startWork bytes
  rw [hingest] at hdrained hinbound
  have hiterate := (iterate_serving p hrun hcancel [.serialReadable bytes]).trans
    ((whileWorking_cons _ _ _ rfl).trans hinbound)
  refine ⟨t, u, fs, hingested, hdrained, hframes, ?_, fun hanswers => ?_, fun k later hw => ?_⟩
  · rw [hiterate, whileWorking_route_fb]
  · rw [hiterate]
    exact whileWorking_route_written p fs hanswers rfl
  · rw [hiterate]
    exact whileWorking_route_failed p fs hw rfl

/-! ### Wrapping one endpoint read (R146) -/

/-- One UIH frame of an endpoint's data (R146). -/
def System.sendData (p : HostParams) (id : Nat) (sys : System) (data : List Byte) : System :=
  sys.sendFrame id p.crOut .uih p.pfOut data (System.ioFailure p none)

/-- What a read is sent as: itself if it fits one frame, else the pieces of the policy `split` (log entry 15). -/
def outboundPieces (p : HostParams) (available : List Byte) : List (List Byte) :=
  if (available.take (readSize p)).length ≤ MAX_LEN then [available.take (readSize p)]
  else chunks (available.take (readSize p)).length (available.take (readSize p))

theorem readSize_boundReads {p : HostParams} (h : p.oversize = .boundReads) : readSize p = min p.epScratch MAX_LEN := by
  simp [readSize, h]

theorem readSize_of_ne {p : HostParams} (h : p.oversize ≠ .boundReads) : readSize p = p.epScratch := by
  cases hp : p.oversize with
  | boundReads => exact absurd hp h
  | split => simp [readSize, hp]
  | drop => simp [readSize, hp]

theorem chunks_flatten {n : Nat} {data : List Byte} (h : data.length ≤ n) : (chunks n data).flatten = data := by
  induction n generalizing data with
  | zero => simp [chunks, List.eq_nil_of_length_eq_zero (Nat.le_zero.1 h)]
  | succ n ih =>
    by_cases hle : data.length ≤ MAX_LEN
    · simp [chunks, hle]
    · have hmax : MAX_LEN = 127 := rfl
      simp [chunks, hle, ih (data := data.drop MAX_LEN) (by simp; omega)]

theorem length_le_of_mem_chunks {n : Nat} {data d : List Byte} (h : d ∈ chunks n data) : d.length ≤ MAX_LEN := by
  induction n generalizing data with
  | zero => simp [chunks] at h
  | succ n ih =>
    by_cases hle : data.length ≤ MAX_LEN
    · obtain rfl : d = data := by simpa [chunks, hle] using h
      exact hle
    · rcases (by simpa [chunks, hle] using h : d = data.take MAX_LEN ∨ d ∈ chunks n (data.drop MAX_LEN)) with rfl | hd
      · exact List.length_take_le _ _
      · exact ih hd

section
variable {p : HostParams} {available : List Byte}

theorem outboundPieces_of_le (h : (available.take (readSize p)).length ≤ MAX_LEN) :
    outboundPieces p available = [available.take (readSize p)] := if_pos h

theorem outboundPieces_flatten : (outboundPieces p available).flatten = available.take (readSize p) := by
  by_cases h : (available.take (readSize p)).length ≤ MAX_LEN
  · simp [outboundPieces_of_le h]
  · rw [outboundPieces, if_neg h, chunks_flatten le_rfl]

theorem outboundPieces_ne_nil : outboundPieces p available ≠ [] := by
  by_cases h : (available.take (readSize p)).length ≤ MAX_LEN
  · simp [outboundPieces_of_le h]
  · intro hnil
    have hflatten := outboundPieces_flatten (p := p) (available := available)
    rw [hnil, List.flatten_nil] at hflatten
    exact h (hflatten ▸ Nat.zero_le _)

theorem length_le_of_mem_outboundPieces {d : List Byte} (h : d ∈ outboundPieces p available) : d.length ≤ MAX_LEN := by
  unfold outboundPieces at h
  split at h
  next hle =>
    obtain rfl := List.mem_singleton.1 h
    exact hle
  next => exact length_le_of_mem_chunks h

end

section
variable {p : HostParams} {sys : System} {id : Nat} {c : Channel} {available : List Byte}

/-- A read of a channel in service that is not to be dropped is sent piece by piece. -/
theorem outbound_sends (hc : sys.host.channels[id]? = some c) (hbound : c.bound = true) (hfailed : c.failed = false)
    (hworking : sys.host.workEnded = false)
    (h : (available.take p.epScratch).length ≤ MAX_LEN ∨ p.oversize ≠ .drop) :
    sys.outbound p id available = System.whileWorking (System.sendData p id) (outboundPieces p available) sys := by
  by_cases hle : (available.take (readSize p)).length ≤ MAX_LEN
  · rw [outboundPieces_of_le hle, whileWorking_cons _ _ _ hworking, whileWorking_nil]
    simp only [System.outbound, hc, hbound, hfailed, hle, Bool.not_true, Bool.false_eq_true, if_false, if_true]
    rfl
  · have hsplit : p.oversize = .split := by
      cases hp : p.oversize with
      | split => rfl
      | boundReads =>
        rw [readSize_boundReads hp, List.length_take] at hle
        omega
      | drop =>
        rw [readSize_of_ne (by simp [hp])] at hle
        exact (h.elim hle (· hp)).elim
    rw [outboundPieces, if_neg hle]
    simp only [System.outbound, hc, hbound, hfailed, hle, hsplit, Bool.not_true, Bool.false_eq_true, if_false]
    rfl

/-- A longer read is logged and not sent under the policy `drop`. -/
theorem outbound_drops (hc : sys.host.channels[id]? = some c) (hbound : c.bound = true) (hfailed : c.failed = false)
    (hdrop : p.oversize = .drop) (hlong : MAX_LEN < (available.take p.epScratch).length) :
    sys.outbound p id available = sys.logEntry (.oversizeDropped id (available.take p.epScratch).length) := by
  have hsize : readSize p = p.epScratch := readSize_of_ne (by simp [hdrop])
  simp only [System.outbound, hc, hbound, hfailed, hsize, Nat.not_le.2 hlong, hdrop, Bool.not_true,
    Bool.false_eq_true, if_false]

end

/-- The host and the buffer while data is sent and no write fails: only the serial stream and the world's
answers move. -/
structure System.SendsOn (sys sys' : System) : Prop where
  answers   : sys'.host.NoWriteFails
  workEnded : sys'.host.workEnded = false
  log       : sys'.host.log = sys.host.log
  channels  : sys'.host.channels = sys.host.channels
  fb        : sys'.block.fb = sys.block.fb

theorem sendData_sendsOn (p : HostParams) (id : Nat) {sys sys' : System} (h : sys.SendsOn sys') {d : List Byte}
    (hd : d.length ≤ MAX_LEN) :
    sys.SendsOn (sys'.sendData p id d) ∧
      ∃ w, encodeFrame (channelFrame id p.crOut .uih p.pfOut d) = .ok w ∧
        (sys'.sendData p id d).host.serialOut = sys'.host.serialOut ++ w := by
  obtain ⟨b, w, hb, hwire, hsend⟩ :=
    sendFrame_written id p.crOut .uih p.pfOut (System.ioFailure p none) hd h.answers
  rw [System.sendData, hsend]
  exact ⟨⟨h.answers.of_tail rfl, h.workEnded, h.log, h.channels, hb.trans h.fb⟩, w, hwire, rfl⟩

/-- Pieces that fit are all sent where no write fails, in order and one frame each. -/
theorem whileWorking_sendData_written (p : HostParams) (id : Nat) {sys : System} (hw : sys.host.NoWriteFails)
    (hworking : sys.host.workEnded = false) {pieces : List (List Byte)} (hfit : ∀ d ∈ pieces, d.length ≤ MAX_LEN) :
    sys.SendsOn (System.whileWorking (System.sendData p id) pieces sys) ∧
      ∃ wires, List.Forall₂ (fun d w => encodeFrame (channelFrame id p.crOut .uih p.pfOut d) = .ok w) pieces wires ∧
        (System.whileWorking (System.sendData p id) pieces sys).host.serialOut =
          sys.host.serialOut ++ wires.flatten := by
  have hstart : sys.SendsOn sys := ⟨hw, hworking, rfl, rfl, rfl⟩
  have hstep : ∀ sys' : System, sys.SendsOn sys' → ∀ d ∈ pieces, sys.SendsOn (sys'.sendData p id d) :=
    fun sys' h d hd => (sendData_sendsOn p id h (hfit d hd)).1
  rw [whileWorking_eq_foldl (fun sys' h => h.workEnded) hstep hstart]
  exact foldl_writes (work := System.sendData p id) (P := sys.SendsOn)
    (fun sys' h d hd => sendData_sendsOn p id h (hfit d hd)) hstart

/-- Where the first write fails, none of the pieces is sent (R151). -/
theorem whileWorking_sendData_failed (p : HostParams) (id : Nat) {sys : System}
    (hw : sys.host.writeAnswers.head? = some .failed) (hworking : sys.host.workEnded = false)
    {pieces : List (List Byte)} (hne : pieces ≠ []) (hfit : ∀ d ∈ pieces, d.length ≤ MAX_LEN) :
    ∃ b : State, b.fb = sys.block.fb ∧
      System.whileWorking (System.sendData p id) pieces sys =
        System.ioFailure p none
          { host := { sys.host with writeAnswers := sys.host.writeAnswers.tail }, block := b } := by
  obtain ⟨d, rest, rfl⟩ := List.exists_cons_of_ne_nil hne
  obtain ⟨b, w, hb, -, hsend⟩ := sendFrame_of_le id p.crOut .uih p.pfOut (System.ioFailure p none) sys
    (hfit d List.mem_cons_self)
  refine ⟨b, hb, ?_⟩
  rw [whileWorking_cons _ _ _ hworking, System.sendData, hsend,
    writeSerial_failed (sys := { sys with block := b }) hw,
    whileWorking_ended _ _ (ioFailure_failsAt p none _).workEnded]

/-- Settles O59: a read that is dropped, and one that is sent in `outboundPieces`. -/
theorem outboundWrapsOneRead : Obligations.OutboundWrapsOneRead := by
  unfold Obligations.OutboundWrapsOneRead
  intro p sys id c available hid hc hbound hfailed hworking hanswers
  by_cases hsent : (available.take p.epScratch).length ≤ MAX_LEN ∨ p.oversize ≠ .drop
  · obtain ⟨hkeeps, wires, hwires, hout⟩ := whileWorking_sendData_written p id hanswers hworking
      (fun d hd => length_le_of_mem_outboundPieces (p := p) (available := available) hd)
    rw [← outbound_sends hc hbound hfailed hworking hsent] at hkeeps hout
    refine ⟨outboundPieces p available, wires, [], hout, by simpa using hkeeps.log, hkeeps.channels, hkeeps.fb, ?_,
      fun hpolicy => ?_, fun hpolicy hle => ?_, fun hpolicy hlong => ?_, fun hpolicy _ => ?_⟩
    · refine (List.forall₂_and_left _ _).2 ⟨fun d hd => length_le_of_mem_outboundPieces hd, hwires⟩ |>.imp ?_
      rintro d w ⟨hd, hwire⟩
      exact ⟨hd, channelFrame_header hid hwire⟩
    · have hsize : readSize p = min p.epScratch 127 := readSize_boundReads hpolicy
      have hle : (available.take (readSize p)).length ≤ MAX_LEN := by
        rw [hsize]
        exact (List.length_take_le _ _).trans (min_le_right _ _)
      rw [outboundPieces_of_le hle, hsize]
      exact ⟨rfl, rfl⟩
    · have hsize : readSize p = p.epScratch := readSize_of_ne hpolicy
      rw [outboundPieces_of_le (by rwa [hsize]), hsize]
      exact ⟨rfl, rfl⟩
    · exact (hsent.elim (Nat.not_le.2 hlong) (· hpolicy)).elim
    · exact ⟨by rw [outboundPieces_flatten, readSize_of_ne (by simp [hpolicy])], rfl⟩
  · obtain ⟨hlong, hdrop⟩ : MAX_LEN < (available.take p.epScratch).length ∧ p.oversize = .drop := by
      simpa only [not_or, not_le, not_not] using hsent
    rw [outbound_drops hc hbound hfailed hdrop hlong]
    exact ⟨[], [], _, by simp, rfl, rfl, rfl, .nil, by simp [hdrop], fun _ hle => absurd hle (Nat.not_le.2 hlong),
      fun _ _ => ⟨rfl, rfl⟩, by simp [hdrop]⟩

/-! ### Transport errors in the steady state (R151) -/

/-- A delivery that fails is a transport error of the frame's channel. -/
theorem route_failsAt (p : HostParams) {sys : System} {f : Frame} {c : Channel}
    (hf : f.control ∈ ([0xEF, 0xFF, 0x03, 0x13] : List Byte)) (hc : sys.host.channels[f.address.toNat / 4]? = some c)
    (hbound : c.bound = true) (hfailed : c.failed = false) (hw : sys.host.writeAnswers.head? = some .failed) :
    sys.host.FailsAt p (some (f.address.toNat / 4)) (sys.route p f).host := by
  obtain ⟨b, -, hroute⟩ := route_payload p sys f hf
  rw [hroute, deliver_inService (sys := { sys with block := b }) p _ hc hbound hfailed,
    writeEndpoint_failed (sys := { sys with block := b }) hw]
  exact failedWrite_failsAt p _ sys b

/-- An endpoint read whose write to the serial stream fails is a transport error of the serial stream. -/
theorem outbound_failsAt {p : HostParams} {sys : System} {id : Nat} {c : Channel} {available : List Byte}
    (hc : sys.host.channels[id]? = some c) (hbound : c.bound = true) (hfailed : c.failed = false)
    (hworking : sys.host.workEnded = false) (hw : sys.host.writeAnswers.head? = some .failed)
    (h : (available.take p.epScratch).length ≤ MAX_LEN ∨ p.oversize ≠ .drop) :
    sys.host.FailsAt p none (sys.outbound p id available).host ∧
      (sys.outbound p id available).block.fb = sys.block.fb := by
  obtain ⟨b, hb, hsend⟩ := whileWorking_sendData_failed p id hw hworking (outboundPieces_ne_nil (p := p))
    (fun d hd => length_le_of_mem_outboundPieces (available := available) hd)
  rw [outbound_sends hc hbound hfailed hworking h, hsend, ioFailure_block]
  exact ⟨failedWrite_failsAt p none sys b, hb⟩

/-- A read that fails is a transport error of its descriptor. -/
theorem serve_error (p : HostParams) (sys : System) (channel : Option Nat) :
    sys.serve p (channel.elim .serialError .endpointError) = System.ioFailure p channel sys := by
  cases channel <;> rfl

/-- What the wait reported behind the descriptor that ended the work is not served. -/
theorem iterate_append_of_ended (p : HostParams) {sys : System} (hrun : sys.host.running = true)
    (hcancel : sys.host.cancelled = false) {served : List LoopEvent} (rest : List LoopEvent)
    (hended : (sys.iterate p served).host.workEnded = true) :
    sys.iterate p (served ++ rest) = sys.iterate p served := by
  rw [iterate_serving p hrun hcancel] at hended
  rw [iterate_serving p hrun hcancel, iterate_serving p hrun hcancel, whileWorking_append,
    whileWorking_ended _ _ hended]

/-- Settles O54: each failing write or read is `HostState.FailsAt`, which holds what is asked of it. -/
theorem transportErrorEndsTheIteration : Obligations.TransportErrorEndsTheIteration := by
  unfold Obligations.TransportErrorEndsTheIteration
  refine ⟨fun p sys f c hf hc hbound hfailed hw => ?_, fun p sys id c available hc hbound hfailed hworking hw h => ?_,
    fun p sys served rest hrun hcancel hended => iterate_append_of_ended p hrun hcancel rest hended,
    fun p sys channel => ?_⟩
  · have hfails := route_failsAt p hf hc hbound hfailed hw
    refine ⟨hfails.delivered, hfails.workEnded, hfails.log, hfails.fatal, fun hpolicy => ?_⟩
    obtain ⟨hrunning, hchannels⟩ := hfails.perChannel hpolicy
    refine ⟨hrunning, by simp [hchannels, hc], fun id hid => ?_⟩
    simp [hchannels, Ne.symm hid]
  · obtain ⟨hfails, hfb⟩ := outbound_failsAt hc hbound hfailed hworking hw h
    refine ⟨hfails.serialOut, hfails.delivered, hfails.workEnded, hfails.log, hfb, hfails.fatal, fun hpolicy => ?_⟩
    obtain ⟨hrunning, hchannels⟩ := hfails.perChannel hpolicy
    exact ⟨hrunning, List.ext_getElem? fun i => by simp [hchannels]⟩
  · have hfails := ioFailure_failsAt p channel sys
    rw [serve_error]
    exact ⟨hfails.log, hfails.workEnded, hfails.delivered, hfails.serialOut, ioFailure_block p channel sys,
      hfails.fatal, hfails.perChannel⟩

end Sys2Proof.Machine
end

section
/-! Statuses in place of exceptions (60_exceptions.md R170 to R174): every instruction answers, every request that the
interface can express is served, and so no run of the block stops. -/

namespace Sys2Proof.Machine

/-! ### One instruction -/

/-- Every instruction gives a next state, which differs from the old one in the buffer and the response only. -/
theorem exec_responds (i : Instr) (s : State) :
    ∃ (fb : Memory) (a : Response), exec i s = .next { s with fb := fb, response := some a } := by
  rcases touchesBuffer_cases i with ⟨bytes, rfl⟩ | rfl | rfl | hpure
  · rcases Nat.lt_or_ge s.config.fbCap (s.fb.length + bytes.length) with hover | hfits
    · exact ⟨_, _, exec_fbIngest_of_gt hover⟩
    · exact ⟨_, _, exec_fbIngest_of_le hfits⟩
  · exact ⟨_, _, exec_fbExtract_eq s⟩
  · exact ⟨_, _, exec_fbDrain_eq s⟩
  · obtain ⟨a, ha⟩ := exec_pure_next hpure
    exact ⟨s.fb, a, ha s⟩

/-- Settles O15: by `exec_responds`, neither the parameter nor the pending requests change. -/
theorem everyInstructionCompletes : Obligations.EveryInstructionCompletes := by
  unfold Obligations.EveryInstructionCompletes
  intro i s
  obtain ⟨fb, a, hexec⟩ := exec_responds i s
  exact ⟨_, hexec, rfl, rfl, rfl⟩

/-! ### One step -/

/-- Settles O9: an idle step, by `step_idle`. -/
theorem idleBlockHoldsItsState : Obligations.IdleBlockHoldsItsState := by
  unfold Obligations.IdleBlockHoldsItsState
  intro s hidle
  exact step_idle hidle

/-- What the bytes of an expressible request are: an instruction, or an encoding that the port answers with a status
(R56, R57, R48). -/
theorem expressible_issue_cases {port : Port} {bytes : List Byte} (h : (Request.issue port bytes).Expressible = true) :
    (∃ i, decode port bytes = .ok i) ∨ ∃ st, PortRaises port bytes st := by
  cases hd : decode port bytes with
  | ok i => exact .inl ⟨i, rfl⟩
  | error e =>
    cases e with
    | illegalOp => exact .inr ⟨_, portRaises_illegalOp hd⟩
    | unsupportedFrameType c => exact .inr ⟨_, portRaises_unsupportedFrameType hd⟩
    | _ => simp [Request.Expressible, hd] at h

/-- A step takes an expressible request off the port and gives a next state with the same parameter; without a request
it is idle. -/
theorem step_of_expressible {s : State} (h : ∀ r ∈ s.pending, r.Expressible = true) :
    ∃ t, step s = .next t ∧ t.pending = s.pending.tail ∧ t.config = s.config := by
  rcases hp : s.pending with _ | ⟨⟨port, bytes⟩ | _, rest⟩
  case nil => exact ⟨s, step_idle hp, hp, rfl⟩
  case cons.reset => exact ⟨_, step_reset hp, rfl, rfl⟩
  case cons.issue =>
    have hhead : (Request.issue port bytes).Expressible = true := h _ (by simp [hp])
    rcases expressible_issue_cases hhead with ⟨i, hd⟩ | ⟨st, hraises⟩
    · obtain ⟨fb, a, hexec⟩ := exec_responds i { s with pending := rest }
      exact ⟨_, (step_issue_of_decode_ok hp hd).trans hexec, rfl, rfl⟩
    · exact ⟨_, hraises s rest hp, rfl, rfl⟩

/-! ### A run of steps -/

/-- Settles O14, by induction on the number of steps: what is left at the port after one step is expressible again. -/
theorem noRunStops : Obligations.NoRunStops := by
  unfold Obligations.NoRunStops
  intro k
  induction k with
  | zero => exact fun s _ => ⟨s, core_run_zero s, rfl, rfl⟩
  | succ k ih =>
    intro s hs
    obtain ⟨s', hstep, hpending, hconfig⟩ := step_of_expressible hs
    have hs' : ∀ r ∈ s'.pending, r.Expressible = true := fun r hr => hs r (List.mem_of_mem_tail (hpending ▸ hr))
    obtain ⟨t, hrun, hdrop, hconfig'⟩ := ih s' hs'
    refine ⟨t, (core_run_next hstep k).trans hrun, ?_, hconfig'.trans hconfig⟩
    rw [hdrop, hpending, List.drop_tail]

end Sys2Proof.Machine
end

section
/-! Reset and hazards (70_reset_and_hazards.md): a reset request, a buffer with one FLAG or none, which never gives a
frame, and the order of start-up. -/

namespace Sys2Proof.Machine

/-! ### Reset (R190) -/

/-- Settles O10: `step_reset`, with `resetBlock` written out. -/
theorem resetRequestEmptiesTheBuffer : Obligations.ResetRequestEmptiesTheBuffer := by
  unfold Obligations.ResetRequestEmptiesTheBuffer
  intro s rest hp
  exact step_reset hp

/-! ### A buffer without a FLAG (R208) -/

/-- Settles O46: an extraction without a FLAG clears the buffer, and the drain loop does not make one. -/
theorem extractAndDrainDifferWithoutAFlag : Obligations.ExtractAndDrainDifferWithoutAFlag := by
  unfold Obligations.ExtractAndDrainDifferWithoutAFlag
  intro s hn
  constructor
  · rw [exec_fbExtract_eq, extractOne_no_flag hn, extractResponse]
  · rw [exec_fbDrain_eq, drainAll_no_flag hn]

/-! ### A buffer with one FLAG (R201, R202) -/

/-- A wire form opens with one FLAG and closes with another. -/
theorem two_le_count_flag_encodeFrame {f : Frame} {w : List Byte} (h : encodeFrame f = .ok w) : 2 ≤ w.count FLAG := by
  obtain ⟨li, -, rfl⟩ := encodeFrame_eq_ok h
  have hclosing : 0 < (f.address :: f.control :: li ::
      (f.content ++ [fcsCompute f.address f.control li f.content, FLAG])).count FLAG :=
    List.count_pos_iff.2 (by simp)
  rw [List.count_cons_self]
  omega

/-- The opening and the closing FLAG of a frame are two bytes of the buffer, so a single FLAG never gives a frame: the
extraction discards through it (R124). -/
theorem extractOne_single_flag {g r : List Byte} (hg : FLAG ∉ g) (hr : FLAG ∉ r) :
    extractOne (g ++ FLAG :: r) = (none, r) := by
  have hcount : (g ++ FLAG :: r).count FLAG = 1 := by
    rw [List.count_append, List.count_cons_self, List.count_eq_zero.2 hg, List.count_eq_zero.2 hr]
  have hnone : (extractOne (g ++ FLAG :: r)).1 = none := by
    refine Option.eq_none_iff_forall_ne_some.2 fun f hf => ?_
    obtain ⟨skipped, w, -, hw, hfb⟩ := extractOne_of_some hf
    have htwo := two_le_count_flag_encodeFrame hw
    rw [hfb, List.count_append, List.count_append] at hcount
    omega
  exact Prod.ext hnone ((extractOne_snd_of_none hnone).trans (resync_split hg r))

theorem drainAll_single_flag {g r : List Byte} (hg : FLAG ∉ g) (hr : FLAG ∉ r) :
    drainAll (g ++ FLAG :: r) = ([], r) := by
  rw [drainAll_flag (by simp), extractOne_single_flag hg hr, drainAll_no_flag hr]
  rfl

/-- Bytes that fit and leave the buffer with a single FLAG are drained through it without a frame. -/
theorem execAll_ingest_drain_single_flag {s : State} {bytes g r : List Byte}
    (hfits : s.fb.length + bytes.length ≤ s.config.fbCap) (hfb : s.fb ++ bytes = g ++ FLAG :: r) (hg : FLAG ∉ g)
    (hr : FLAG ∉ r) :
    execAll [.fbIngest bytes, .fbDrain] s = .next { s with fb := r, response := some ⟨.ok, .frames []⟩ } := by
  rw [execAll_cons (exec_fbIngest_of_le hfits), execAll_singleton (exec_fbDrain_eq _), State.answer_fb, State.setFb_fb,
    hfb, drainAll_single_flag hg hr]
  rfl

/-- Settles O49: each of the two drains finds a single FLAG, the first the opening one and the second the closing one. -/
theorem splitFrameIsLost : Obligations.SplitFrameIsLost := by
  unfold Obligations.SplitFrameIsLost
  intro s f first second hempty hwire hfirst hsecond hcap
  have hlen := encodeFrame_length hwire
  simp only [List.length_append, List.length_singleton] at hlen
  have hopening := execAll_ingest_drain_single_flag (s := s) (bytes := [FLAG] ++ first) (g := []) (r := first)
    (by simp [hempty]; omega) (by simp [hempty]) (by simp) hfirst
  have hclosing := execAll_ingest_drain_single_flag
    (s := { s with fb := first, response := some ⟨.ok, .frames []⟩ }) (bytes := second ++ [FLAG]) (g := first ++ second)
    (r := []) (by simp; omega) (by simp) (by simp [hfirst, hsecond]) (by simp)
  exact ⟨_, _, hopening, rfl, rfl, hclosing, rfl, rfl⟩

/-- Settles O50: the first frame takes its closing FLAG along, and behind it a single one is left. -/
theorem sharedFlagLosesTheSecondFrame : Obligations.SharedFlagLosesTheSecondFrame := by
  unfold Obligations.SharedFlagLosesTheSecondFrame
  intro s f1 f2 w1 body hw1 _ hbody hfb
  have hfirst : extractOne s.fb = (some f1, body ++ [FLAG]) := by
    simpa [hfb] using extractOne_encodeFrame hw1 (g := []) (by simp) (body ++ [FLAG])
  have hsecond : extractOne (body ++ [FLAG]) = (none, []) := extractOne_single_flag hbody (by simp)
  exact ⟨_, _, exec_fbExtract_eq s, by simp [hfirst], by simp [hfirst], exec_fbExtract_eq _, by simp [hfirst, hsecond],
    by simp [hfirst, hsecond]⟩

/-! ### The order of start-up (R194, R152) -/

/-- The system once the commands of some AT exchanges have been written. -/
def System.commandsWritten (sys : System) (xs : List AtExchange) : System :=
  { sys with host := { sys.host with
      serialOut := sys.host.serialOut ++ (xs.map AtExchange.command).flatten
      writeAnswers := sys.host.writeAnswers.drop xs.length } }

theorem commandsWritten_nil (sys : System) : sys.commandsWritten [] = sys := by simp [System.commandsWritten]

theorem commandsWritten_append (sys : System) (xs ys : List AtExchange) :
    sys.commandsWritten (xs ++ ys) = (sys.commandsWritten xs).commandsWritten ys := by
  simp [System.commandsWritten, List.drop_drop]

theorem commandsWritten_noWriteFails {sys : System} (hw : sys.host.NoWriteFails) (xs : List AtExchange) :
    (sys.commandsWritten xs).host.NoWriteFails := fun a ha => hw a (List.mem_of_mem_drop ha)

/-- An exchange whose write does not fail leaves its command on the serial stream, whatever its outcome. -/
theorem atExchange_written (p : HostParams) (x : AtExchange) {sys : System} (hw : sys.host.NoWriteFails) :
    sys.atExchange p x = (sys.commandsWritten [x], atCommand p.atOkFirst p.atRetries x.responses) := by
  rw [System.atExchange, writeSerial_written hw.head_ne]
  simp [System.commandsWritten]

theorem bringUp_cons_of_success {p : HostParams} {x : AtExchange}
    (h : atCommand p.atOkFirst p.atRetries x.responses = .success) (rest : List AtExchange) (sys : System) :
    System.bringUp p (x :: rest) sys = System.bringUp p rest (sys.atExchange p x).1 := by
  simp [System.bringUp, System.atExchange, h]

/-- An exchange that fails ends start-up with what it has done and with its outcome (R151). -/
theorem bringUp_cons_of_failure {p : HostParams} {x : AtExchange}
    (h : atCommand p.atOkFirst p.atRetries x.responses ≠ .success) (rest : List AtExchange) (sys : System) :
    System.bringUp p (x :: rest) sys = sys.atExchange p x := by
  cases ho : atCommand p.atOkFirst p.atRetries x.responses with
  | success => exact absurd ho h
  | commandFailed => simp [System.bringUp, System.atExchange, ho]
  | timedOut => simp [System.bringUp, System.atExchange, ho]

/-- Start-up goes on behind exchanges that succeed from the system in which their commands are written. -/
theorem bringUp_append {p : HostParams} {before : List AtExchange}
    (h : ∀ x ∈ before, atCommand p.atOkFirst p.atRetries x.responses = .success) (rest : List AtExchange) {sys : System}
    (hw : sys.host.NoWriteFails) :
    System.bringUp p (before ++ rest) sys = System.bringUp p rest (sys.commandsWritten before) := by
  induction before generalizing sys with
  | nil => rw [List.nil_append, commandsWritten_nil]
  | cons x before ih =>
    obtain ⟨hx, hbefore⟩ := List.forall_mem_cons.1 h
    rw [List.cons_append, bringUp_cons_of_success hx, atExchange_written p x hw,
      ih hbefore (commandsWritten_noWriteFails hw [x]), ← commandsWritten_append, List.singleton_append]

/-- Settles O58: `bringUp_append` over the exchanges that succeed, and then the SABM frames or the one that fails. -/
theorem bringUpWritesTheCommandsFirst : Obligations.BringUpWritesTheCommandsFirst := by
  unfold Obligations.BringUpWritesTheCommandsFirst
  intro p sys before hw hbefore
  refine ⟨⟨sys.commandsWritten before, ?_, rfl, rfl, rfl⟩, fun x after hx => ?_⟩
  · simpa [System.bringUp] using bringUp_append hbefore [] hw
  · have hrun : System.bringUp p (before ++ x :: after) sys =
        (sys.commandsWritten (before ++ [x]), atCommand p.atOkFirst p.atRetries x.responses) := by
      rw [bringUp_append hbefore _ hw, bringUp_cons_of_failure hx,
        atExchange_written p x (commandsWritten_noWriteFails hw before), commandsWritten_append]
    rw [hrun]
    exact ⟨rfl, rfl, by simp [System.commandsWritten], rfl, rfl⟩

end Sys2Proof.Machine
end
